-- ==== Sys2Proof/Word.lean ====
section
/-! DEFINITION. The widths of CRCFRAME's values (R7, R8): bytes, 16-bit values and 10-bit host addresses. -/

namespace Sys2Proof

/-- A byte, `u8` of R8. -/
abbrev Byte := BitVec 8

/-- A 16-bit value, `u16` of R8: the contents of CRC and CLAIM. -/
abbrev Word := BitVec 16

/-- A host address: ten bits, each value naming one byte (R31). -/
abbrev Addr := BitVec 10

end Sys2Proof
end

