-- ==== Sys2Proof/Machine/AddressMap.lean ====
section
/-! DEFINITION. The host address map (R32). -/

namespace Sys2Proof.Machine

/-- The host-visible registers of R32, a 16-bit register as two bytes. -/
inductive HostReg where
  | cmd | status | errcode | inLen | outLen | prefixReg | data | crcLo | crcHi | claimLo | claimHi | rxLen | remain
  deriving DecidableEq, Repr

/-- What a host address names. -/
inductive Place where
  /-- IN[i]. -/
  | inByte (i : Nat)
  /-- OUT[i]. -/
  | outByte (i : Nat)
  /-- A register, or one byte of a 16-bit register. -/
  | reg (r : HostReg)
  /-- A reserved address. -/
  | reserved
  deriving DecidableEq, Repr

/-- The address of each register name (R32, R57). -/
def regAddr (r : HostReg) : Addr :=
  match r with
  | .cmd => 0x200#10
  | .status => 0x201#10
  | .errcode => 0x202#10
  | .inLen => 0x203#10
  | .outLen => 0x204#10
  | .prefixReg => 0x205#10
  | .data => 0x206#10
  | .crcLo => 0x208#10
  | .crcHi => 0x209#10
  | .claimLo => 0x20A#10
  | .claimHi => 0x20B#10
  | .rxLen => 0x20C#10
  | .remain => 0x20D#10

/-- `IN+i` (R57). -/
def inAddr (i : Nat) : Addr := BitVec.ofNat 10 i

/-- `OUT+i` (R57). -/
def outAddr (i : Nat) : Addr := BitVec.ofNat 10 (0x100 + i)

/-- The register rows of R32's table, in its order. -/
def registerMap : List HostReg :=
  [.cmd, .status, .errcode, .inLen, .outLen, .prefixReg, .data, .crcLo, .crcHi, .claimLo, .claimHi, .rxLen, .remain]

/-- What each of the 1024 addresses names (R32). -/
def placeOf (a : Addr) : Place :=
  if a.toNat ≤ 0x0FF then .inByte a.toNat
  else if a.toNat ≤ 0x1FF then .outByte (a.toNat - 0x100)
  else match registerMap.find? (fun r => regAddr r == a) with
    | some r => .reg r
    | none => .reserved

end Sys2Proof.Machine
end

