-- ==== Sys2Proof/Config.lean ====
section
/-! DEFINITION. The constants of R5, each in one place so that an audit of the spec's unaudited literals can change it
there (93_implementation_defined.md section 2; log entry 9), and the one open parameter, CMD_LATENCY (R6, R102). -/

namespace Sys2Proof.Config

/-- POLY (R5): the CRC polynomial. UNVERIFIED: an unaudited literal of the source, log entry 9. -/
def poly : Word := 0x8005#16

/-- CRC_INIT (R5): the CRC register's initial value. -/
def crcInit : Word := 0x0000#16

/-- DEFAULT_PREFIX (R5): the reset value of PREFIX (R21). UNVERIFIED: log entry 9. -/
def defaultPrefix : Byte := 0x03#8

/-- WAKE_ACK (R5, D28): the "wake acknowledged" status byte. UNVERIFIED: log entry 9. -/
def wakeAck : Byte := 0x11#8

/-- MIN_PACKET (R5): the smallest response packet, in bytes. -/
def minPacket : Nat := 4

/-- WAKE_LEN (R5): the size of a wake response, in bytes. -/
def wakeLen : Nat := 4

/-- HDR_LEN (R5): the size of a response header, in bytes. -/
def hdrLen : Nat := 4

/-- MAX_FRAME (R5): the largest framed command, prefix included, in bytes. MAX_BODY is 251 by C4. -/
def maxFrame : Nat := 255

/-- The size of the trailer `[crc_lo][crc_hi]` (R53), which VAL_TRAILER needs at least (R68). -/
def trailerLen : Nat := 2

/-- The size of each of the IN and OUT buffers (R6, D7), in bytes. -/
def bufSize : Nat := 256

/-- CMD_LATENCY (R6, R102, D27): how long a CMD write stalls, by command code and IN_LEN. OPEN in the spec, so it has no
value here, and no definition of the model reads it ("No rule of this spec depends on it, and a model carries no time"):
log entry 7. -/
opaque cmdLatency : Byte → Byte → Nat

end Sys2Proof.Config
end

