-- ==== Sys2Proof/Machine/Crc.lean ====
section
/-! DEFINITION. The CRC function (R59, R61): the ARC-variant, not the catalogue CRC-16/ARC (R60, C1). -/

namespace Sys2Proof.Machine

/-- One data bit through the register (R59): the top bit is taken before the shift, the XOR is applied after it. -/
def crcBit (c : Word) (dataBit : Bool) : Word :=
  let crcTop := c.getLsbD 15
  let shifted := c <<< 1
  if dataBit ^^ crcTop then shifted ^^^ Config.poly else shifted

/-- The eight bits of a byte in the order the CRC takes them: bit 0 first (R59, R37c, C2). -/
def dataBits (b : Byte) : List Bool := [0, 1, 2, 3, 4, 5, 6, 7].map (fun i => b.getLsbD i)

/-- `crc_step(c, b)` (R59). -/
def crcStep (c : Word) (b : Byte) : Word := (dataBits b).foldl crcBit c

/-- `crc16(s)` (R61): the left fold of `crc_step` from CRC_INIT, with no final XOR. -/
def crc16 (s : List Byte) : Word := s.foldl crcStep Config.crcInit

end Sys2Proof.Machine
end

