-- ==== Sys2Proof/Syntax.lean ====
section
/-! DEFINITION. The block commands of CRCFRAME: one constructor per row of the command code table (R47). A command word
carries no operand field (R45), so no constructor has an argument. -/

namespace Sys2Proof

/-- A block command (R3, R47). Its operands are the registers and buffer bytes its rule names. -/
inductive Instr where
  /-- CRC_CLR, code 0x01 (R64). -/
  | crcClr
  /-- CRC_BYTE, code 0x02 (R65). -/
  | crcByte
  /-- CRC_BUF, code 0x03 (R66). -/
  | crcBuf
  /-- CRC_CMP, code 0x04 (R67). -/
  | crcCmp
  /-- VAL_TRAILER, code 0x05 (R68). -/
  | valTrailer
  /-- FRAME_CMD, code 0x06 (R73). -/
  | frameCmd
  /-- VAL_RESP, code 0x07 (R74). -/
  | valResp
  /-- HDR_EXTRACT, code 0x08 (R75). -/
  | hdrExtract
  /-- CHK_WAKE, code 0x09 (R76). -/
  | chkWake
  deriving DecidableEq, Repr

end Sys2Proof
end

