-- ==== Sys2Proof/HostSyntax.lean ====
section
/-! DEFINITION. What the host can do to the block (R43), and the host-program notation's pseudo-instructions (R58). Their
expansions stand in Machine/HostProgram.lean. -/

namespace Sys2Proof

/-- One interaction of the host with the block (R43). Reset stands beside the two accesses because a host access is
performed entirely before reset or entirely after (R94). -/
inductive HostMove where
  /-- `RD a`: a host read of one byte (R33, R57). -/
  | read (a : Addr)
  /-- `WR a, v`: a host write of one byte (R34, R57). -/
  | write (a : Addr) (v : Byte)
  /-- The reset input is asserted (R93). -/
  | reset
  deriving DecidableEq, Repr

/-- A pseudo-instruction of the host-program notation (R58): a spelling of host accesses, and nothing more. -/
inductive Pseudo where
  /-- A mnemonic, which writes the command's code to CMD. -/
  | command (i : Instr)
  /-- `LOAD b0, b1, ...`: the bytes into IN from index 0, then their number into IN_LEN. -/
  | load (bs : List Byte)
  /-- `SETCLAIM c`: CLAIM, low byte then high byte. -/
  | setClaim (c : Word)
  /-- `FEED b`: the byte into DATA, then CRC_BYTE. -/
  | feed (b : Byte)
  /-- `RDCRC`: reads CRC_LO, then CRC_HI. -/
  | rdCrc
  /-- `RDOUT k`: reads the first k bytes of OUT. -/
  | rdOut (k : Nat)
  deriving DecidableEq, Repr

end Sys2Proof
end

