-- ==== Sys2Proof/WellFormed.lean ====
section
/-! DEFINITION. Well-formedness of the syntax. A command word has no operand (R45), so every command is well formed; the
host's pseudo-instructions have two bounds, which R58's own addresses and IN_LEN's width impose (log entry 8). -/

namespace Sys2Proof

/-- Every block command is well formed: "no register fields, no immediates, no mode bits, no length bits" (R45). -/
def Instr.wf (i : Instr) : Bool :=
  match i with
  | .crcClr | .crcByte | .crcBuf | .crcCmp | .valTrailer | .frameCmd | .valResp | .hdrExtract | .chkWake => true

/-- `LOAD` takes at most 255 bytes, the largest value IN_LEN holds (R19); `RDOUT` at most the 256 bytes of OUT (R28). -/
def Pseudo.wf (p : Pseudo) : Bool :=
  match p with
  | .load bs => decide (bs.length < Config.bufSize)
  | .rdOut k => decide (k ≤ Config.bufSize)
  | .command i => i.wf
  | .setClaim _ | .feed _ | .rdCrc => true

end Sys2Proof
end

