-- ==== Sys2Proof/Decode.lean ====
section
/-! DEFINITION. The command word (R45, R47): decoder, total on every byte, and encoder. -/

namespace Sys2Proof

/-- Why a word is no command. -/
inductive DecodeError where
  /-- The code is not in R47's table: 0x00 or 0x0A to 0xFF (R48). The block completes it with ILLEGAL_COMMAND. -/
  | illegalCode (code : Byte)
  /-- There is no byte to decode. -/
  | noByte
  deriving DecidableEq, Repr

/-- The command code table (R47): the match value of every legal code, in the table's order. -/
def opcodeTable : List (Byte × Instr) :=
  [(0x01#8, .crcClr), (0x02#8, .crcByte), (0x03#8, .crcBuf), (0x04#8, .crcCmp), (0x05#8, .valTrailer),
   (0x06#8, .frameCmd), (0x07#8, .valResp), (0x08#8, .hdrExtract), (0x09#8, .chkWake)]

/-- The mask under which a code is compared with a match value: "Decoding needs the full byte" (R47). -/
def codeMask : Byte := 0xFF#8

/-- The command a byte written to CMD stands for, or the reason it stands for none (R46 to R48). -/
def decode (v : Byte) : Except DecodeError Instr :=
  match opcodeTable.find? (fun row => v &&& codeMask == row.1) with
  | some row => .ok row.2
  | none => .error (.illegalCode v)

/-- Decoding from a sequence of bytes: a command word is exactly one byte long (R45, R49). -/
def decodeBytes (bytes : List Byte) : Except DecodeError (Instr × List Byte) :=
  match bytes with
  | [] => .error .noByte
  | v :: rest => (decode v).map (fun i => (i, rest))

/-- The code of a command, `CODE[7:0]` of its word (R47, opcode_table.json). -/
def encode (i : Instr) : Byte :=
  match i with
  | .crcClr => 0x01#8
  | .crcByte => 0x02#8
  | .crcBuf => 0x03#8
  | .crcCmp => 0x04#8
  | .valTrailer => 0x05#8
  | .frameCmd => 0x06#8
  | .valResp => 0x07#8
  | .hdrExtract => 0x08#8
  | .chkWake => 0x09#8

/-- The table word's first byte: bits above `nbits` are 0, and a command word is its low eight bits. -/
def tableByte (nbits w : Nat) : Byte := BitVec.ofNat 8 (w % 2 ^ nbits)

/-- The command the decoder reads from a word numbered as opcode_table.json numbers it. A word with a bit set above bit 7
is no command word, since every command word is one byte long (R49). -/
def decodeTableWord (nbits w : Nat) : Option Instr :=
  if w % 2 ^ nbits < 256 then
    match decodeBytes [tableByte nbits w] with
    | .ok (i, _) => some i
    | .error _ => none
  else none

end Sys2Proof
end

