-- ==== Sys2Proof/Machine/State.lean ====
section
/-! DEFINITION. The state of CRCFRAME: the thirteen elements of R13, and the two fields the model adds to make the host's
moves and its observation plain data. The named reasons a step can stop. The state after reset (R93). -/

namespace Sys2Proof.Machine

/-- The contents of a buffer: (index, byte) pairs, indices strictly rising, no byte listed that equals what an unlisted
index reads as (`unlistedByte` in Ops.lean; log entry 5). `Memory.wf` says the form holds. -/
abbrev Memory := List Host.Cell

/-- The complete state (R13). The first thirteen fields are the spec's; `pending` and `observed` are the model's own. -/
structure State where
  /-- LASTCMD, the read side of CMD (R16). -/
  lastcmd : Byte
  /-- STATUS: bit 0 ERR, bit 1 MATCH, bit 2 LEN_OK, bits 7:3 reserved (R17). -/
  status : Byte
  /-- ERRCODE (R18, R82). -/
  errcode : Byte
  /-- IN_LEN, the number of valid bytes at the start of IN (R19). -/
  inLen : Byte
  /-- OUT_LEN, the number of valid bytes at the start of OUT (R20). -/
  outLen : Byte
  /-- PREFIX, byte 0 of the frame FRAME_CMD builds (R21). -/
  prefixReg : Byte
  /-- DATA, the input byte of CRC_BYTE (R22). -/
  data : Byte
  /-- CRC, the accumulator (R23). -/
  crc : Word
  /-- CLAIM, the claimed CRC (R24). -/
  claim : Word
  /-- RX_LEN, the extracted length field (R25). -/
  rxLen : Byte
  /-- REMAIN, the bytes still to be read after a header (R26). -/
  remain : Byte
  /-- The IN buffer, indices 0 to 255 (R27). -/
  inBuf : Memory
  /-- The OUT buffer, indices 0 to 255 (R28). -/
  outBuf : Memory
  /-- DESIGN CHOICE (log entry 1): the host's moves still to be performed, oldest first (R38, R43). -/
  pending : List HostMove
  /-- DESIGN CHOICE (log entry 4): the bytes the reads of the current run returned, oldest first (R44). -/
  observed : List Byte
  deriving DecidableEq, Repr

/-- Reasons the machine stops with a fault: NONE. Nobody raises one, which is safe: "Every sequence has a defined result"
(R43) and "A command never fails to complete" (R39). The block's errors are register writes (R84). -/
inductive Fault where
  deriving DecidableEq, Repr

/-- Reasons for an instruction to have no meaning in the model. -/
inductive Refusal where
  /-- Raised by an arm of `exec` whose instruction has no meaning yet: safe, the machine stops. No arm raises it now. -/
  | notModelled (mnemonic : String)
  deriving DecidableEq, Repr

/-- The state right after reset (R93), with no host move waiting and nothing observed. -/
def State.reset : State where
  lastcmd := 0x00#8
  status := 0x00#8
  errcode := 0x00#8
  inLen := 0x00#8
  outLen := 0x00#8
  prefixReg := Config.defaultPrefix
  data := 0x00#8
  crc := Config.crcInit
  claim := 0x0000#16
  rxLen := 0x00#8
  remain := 0x00#8
  inBuf := []
  outBuf := []
  pending := []
  observed := []

end Sys2Proof.Machine
end

