-- ==== Sys2Proof/Machine/Flags.lean ====
section
/-! DEFINITION. The error codes (R82) and the STATUS byte (R17, R46). -/

namespace Sys2Proof.Machine

/-- The error codes of R82, NONE included. -/
inductive ErrorCode where
  /-- Success. -/
  | none
  /-- "packet too short to contain required framing". -/
  | malformed
  /-- "CRC validation failed on any packet". -/
  | checksumMismatch
  /-- "caller-submitted body violates size bounds". -/
  | invalidSize
  /-- "wake responded but status byte wrong". -/
  | wakeRejected
  /-- A CMD write of a code not in R47's table. -/
  | illegalCommand
  deriving DecidableEq, Repr

/-- The value ERRCODE takes (R82). -/
def ErrorCode.code (e : ErrorCode) : Byte :=
  match e with
  | .none => 0x00#8
  | .malformed => 0x01#8
  | .checksumMismatch => 0x02#8
  | .invalidSize => 0x03#8
  | .wakeRejected => 0x04#8
  | .illegalCommand => 0x05#8

/-- One flag as a byte: 0 or 1. -/
def flagByte (b : Bool) : Byte := if b then 1#8 else 0#8

/-- The whole of STATUS after a command (R46): `(lenok << 2) | (match << 1) | (1 if e != NONE else 0)`. -/
def statusByte (e : ErrorCode) (matched lenOk : Bool) : Byte :=
  (flagByte lenOk <<< 2) ||| (flagByte matched <<< 1) ||| flagByte (e != .none)

/-- STATUS.ERR, bit 0 (R17). -/
def State.errFlag (s : State) : Bool := s.status.getLsbD 0

/-- STATUS.MATCH, bit 1 (R17). -/
def State.matchFlag (s : State) : Bool := s.status.getLsbD 1

/-- STATUS.LEN_OK, bit 2 (R17). -/
def State.lenOkFlag (s : State) : Bool := s.status.getLsbD 2

end Sys2Proof.Machine
end

