-- ==== Sys2Proof/Machine/Ops.lean ====
section
/-! DEFINITION. The named operations over buffers and registers, and the completion of a command: `endCommand` is the
block's ONE way of reporting an outcome (R46), and `raiseError` its `raise E` (R84). The block has no trap, so there is no
return from one (R87). -/

namespace Sys2Proof.Machine

/-- What an index with no entry reads as: the reset contents of IN and OUT (R27, R28, R93). -/
def unlistedByte : Byte := 0x00#8

/-- The byte at an index. -/
def Memory.read : Memory → Nat → Byte
  | [], _ => unlistedByte
  | (k, v) :: m, a => if k = a then v else Memory.read m a

/-- Puts one cell in front of a memory, unless an unlisted index reads the same. -/
def Memory.cons (a : Nat) (v : Byte) (m : Memory) : Memory := if v = unlistedByte then m else (a, v) :: m

/-- Stores the byte `v` at index `a`, keeping the canonical form. -/
def Memory.write : Memory → Nat → Byte → Memory
  | [], a, v => Memory.cons a v []
  | (k, w) :: m, a, v =>
    if a < k then Memory.cons a v ((k, w) :: m)
    else if a = k then Memory.cons a v m
    else (k, w) :: Memory.write m a v

/-- The memory that holds `bs` from index `a` on and `unlistedByte` everywhere else. -/
def Memory.ofBytesFrom : Nat → List Byte → Memory
  | _, [] => []
  | a, b :: bs => Memory.cons a b (Memory.ofBytesFrom (a + 1) bs)

/-- The half-open slice `[i .. j)` of R9: empty when `j <= i`. -/
def Memory.slice (m : Memory) (i j : Nat) : List Byte := (List.range (j - i)).map (fun k => m.read (i + k))

/-- Indices at least `lo`, strictly rising, below the buffer's size, and no listed byte equal to `unlistedByte`. -/
def Memory.wfFrom : Nat → Memory → Bool
  | _, [] => true
  | lo, (k, v) :: m => decide (lo ≤ k) && decide (k < Config.bufSize) && (v != unlistedByte) && Memory.wfFrom (k + 1) m

/-- The canonical form of a buffer's contents. -/
def Memory.wf (m : Memory) : Bool := Memory.wfFrom 0 m

/-- `CRC <- c` (R23). -/
def State.setCrc (s : State) (c : Word) : State := { s with crc := c }

/-- `CLAIM <- k` (R24). -/
def State.setClaim (s : State) (k : Word) : State := { s with claim := k }

/-- `RX_LEN <- d` (R25). -/
def State.setRxLen (s : State) (d : Byte) : State := { s with rxLen := d }

/-- `REMAIN <- r` (R26). -/
def State.setRemain (s : State) (r : Byte) : State := { s with remain := r }

/-- Rewrites all of OUT (R28): the result bytes, then 0x00 up to OUT[255]; OUT_LEN is their number (R20). -/
def State.setOut (s : State) (bs : List Byte) : State :=
  { s with outBuf := Memory.ofBytesFrom 0 bs, outLen := BitVec.ofNat 8 bs.length }

/-- `OUT[0..256) <- 0x00; OUT_LEN <- 0`, what FRAME_CMD and VAL_RESP do on failure (R28, D18). -/
def State.clearOut (s : State) : State := s.setOut []

/-- `IN[i] <- v` (R27, R34). -/
def State.setInByte (s : State) (i : Nat) (v : Byte) : State := { s with inBuf := s.inBuf.write i v }

/-- `IN_LEN <- v` (R19). -/
def State.setInLen (s : State) (v : Byte) : State := { s with inLen := v }

/-- `PREFIX <- v` (R21). -/
def State.setPrefixReg (s : State) (v : Byte) : State := { s with prefixReg := v }

/-- `DATA <- v` (R22). -/
def State.setData (s : State) (v : Byte) : State := { s with data := v }

/-- The host's remaining moves (log entry 1). -/
def State.setPending (s : State) (ms : List HostMove) : State := { s with pending := ms }

/-- Records a byte that a host read returned (R44). -/
def State.observe (s : State) (b : Byte) : State := { s with observed := s.observed ++ [b] }

/-- The common completion of a command (R46): `LASTCMD <- v`, `ERRCODE <- e`, and all of STATUS. -/
def State.endCommand (s : State) (v : Byte) (e : ErrorCode) (matched lenOk : Bool) : State :=
  { s with lastcmd := v, errcode := e.code, status := statusByte e matched lenOk }

/-- Completion with NONE. -/
def State.succeed (s : State) (v : Byte) (matched lenOk : Bool) : State := s.endCommand v .none matched lenOk

/-- `raise E` (R84): the command `v` ends with error `e` and the flags its rule gives. Nothing is saved and control goes
nowhere. -/
def State.raiseError (s : State) (v : Byte) (e : ErrorCode) (matched lenOk : Bool) : State :=
  s.endCommand v e matched lenOk

/-- A code that is no command (R48): ILLEGAL_COMMAND, and nothing else changes. -/
def illegalCommand (v : Byte) (s : State) : State := s.raiseError v .illegalCommand false false

end Sys2Proof.Machine
end

