-- ==== Sys2Proof/Machine/Operands.lean ====
section
/-! DEFINITION. The implicit operands of the commands (R45, R47) and the byte order of 16-bit values (R37). -/

namespace Sys2Proof.Machine

/-- `c[7:0]` (R7). -/
def lowByte (c : Word) : Byte := c.extractLsb' 0 8

/-- `c[15:8]` (R7). -/
def highByte (c : Word) : Byte := c.extractLsb' 8 8

/-- `zext_16(b)` (R8). -/
def zext16 (b : Byte) : Word := b.setWidth 16

/-- The u16 whose low byte comes first: `zext_16(lo) | (zext_16(hi) << 8)` (R24, R37b). -/
def leWord (lo hi : Byte) : Word := zext16 lo ||| (zext16 hi <<< 8)

/-- `le_bytes(c)` (R9): low byte, then high byte. -/
def leBytes (c : Word) : List Byte := [lowByte c, highByte c]

/-- N, the value of IN_LEN as a number (R19). -/
def State.inCount (s : State) : Nat := s.inLen.toNat

/-- `IN[i]` (R27). -/
def State.inByte (s : State) (i : Nat) : Byte := s.inBuf.read i

/-- `IN[i..j)` (R9). -/
def State.inSlice (s : State) (i j : Nat) : List Byte := s.inBuf.slice i j

/-- The claimed CRC of the n-byte packet in IN (R53): its last two bytes, low byte first. -/
def State.trailer (s : State) (n : Nat) : Word := leWord (s.inByte (n - 2)) (s.inByte (n - 1))

/-- `CLAIM[7:0] <- v`, a host write (R34). -/
def State.setClaimLow (s : State) (v : Byte) : State := s.setClaim (leWord v (highByte s.claim))

/-- `CLAIM[15:8] <- v`, a host write (R34). -/
def State.setClaimHigh (s : State) (v : Byte) : State := s.setClaim (leWord (lowByte s.claim) v)

end Sys2Proof.Machine
end

