-- ==== Sys2Proof/Machine/Packet.lean ====
section
/-! DEFINITION. The packet formats (R50 to R56) as functions of byte sequences (R72). -/

namespace Sys2Proof.Machine

/-- The length byte of a command frame for a body of `n` bytes: itself, the body and the two CRC bytes (R50, R54). -/
def frameLength (n : Nat) : Byte := BitVec.ofNat 8 (n + 3)

/-- The CRC of a command frame: over the length byte and the body, not the prefix (R50). -/
def frameCrc (body : List Byte) : Word := crc16 (frameLength body.length :: body)

/-- `frame(p, body)` (R72), for a body of 1 to 251 bytes. -/
def frame (p : Byte) (body : List Byte) : List Byte :=
  [p, frameLength body.length] ++ body ++ leBytes (frameCrc body)

/-- `payload(P)` (R72): drops the length byte and the two CRC bytes (R55, C7). -/
def payload (packet : List Byte) : List Byte := (packet.take (packet.length - 2)).drop 1

/-- The body of the chip's read-word command (R56), which only test vectors use: opcode 0x02, the zone, and the address
low byte first. -/
def chipReadBody (zone : Byte) (addr : Word) : List Byte := [0x02#8, zone] ++ leBytes addr

end Sys2Proof.Machine
end

