-- ==== Sys2Proof/Machine/CrcEngine.lean ====
section
/-! DEFINITION. The five CRC commands (R64 to R68). -/

namespace Sys2Proof.Machine

/-- CRC_CLR (R64). -/
def execCrcClr (s : State) : Host.Outcome State Fault Refusal :=
  .next ((s.setCrc Config.crcInit).succeed (encode .crcClr) false false)

/-- CRC_BYTE (R65): continues from whatever CRC holds. -/
def execCrcByte (s : State) : Host.Outcome State Fault Refusal :=
  .next ((s.setCrc (crcStep s.crc s.data)).succeed (encode .crcByte) false false)

/-- CRC_BUF (R66). -/
def execCrcBuf (s : State) : Host.Outcome State Fault Refusal :=
  .next ((s.setCrc (crc16 (s.inSlice 0 s.inCount))).succeed (encode .crcBuf) false false)

/-- CRC_CMP (R67): a mismatch is a result, not an error (R83). -/
def execCrcCmp (s : State) : Host.Outcome State Fault Refusal :=
  let c := crc16 (s.inSlice 0 s.inCount)
  .next ((s.setCrc c).succeed (encode .crcCmp) (c == s.claim) false)

/-- VAL_TRAILER (R68): the length byte is not examined, and a mismatch is not an error (R83). -/
def execValTrailer (s : State) : Host.Outcome State Fault Refusal :=
  let n := s.inCount
  if n < Config.trailerLen then .next (s.raiseError (encode .valTrailer) .malformed false false)
  else
    let c := crc16 (s.inSlice 0 (n - 2))
    let k := s.trailer n
    .next (((s.setCrc c).setClaim k).succeed (encode .valTrailer) (c == k) false)

end Sys2Proof.Machine
end

