-- ==== Sys2Proof/Machine/FrameCodec.lean ====
section
/-! DEFINITION. The four packet commands (R73 to R76). -/

namespace Sys2Proof.Machine

/-- FRAME_CMD (R73). -/
def execFrameCmd (s : State) : Host.Outcome State Fault Refusal :=
  let n := s.inCount
  if n = 0 ∨ n + 4 > Config.maxFrame then
    .next (s.clearOut.raiseError (encode .frameCmd) .invalidSize false false)
  else
    let body := s.inSlice 0 n
    .next (((s.setOut (frame s.prefixReg body)).setCrc (frameCrc body)).succeed (encode .frameCmd) false false)

/-- VAL_RESP (R74): LEN_OK is reported and is not part of the verdict (C5). -/
def execValResp (s : State) : Host.Outcome State Fault Refusal :=
  let n := s.inCount
  if n < Config.minPacket then .next (s.clearOut.raiseError (encode .valResp) .malformed false false)
  else
    let c := crc16 (s.inSlice 0 (n - 2))
    let k := s.trailer n
    let extracted := ((s.setCrc c).setClaim k).setRxLen (s.inByte 0)
    let lenOk := (s.inByte 0).toNat == n
    if c ≠ k then .next (extracted.clearOut.raiseError (encode .valResp) .checksumMismatch false lenOk)
    else .next ((extracted.setOut (payload (s.inSlice 0 n))).succeed (encode .valResp) true lenOk)

/-- HDR_EXTRACT (R75): only IN[0] is read, and it is not compared with N. -/
def execHdrExtract (s : State) : Host.Outcome State Fault Refusal :=
  let d := s.inByte 0
  if s.inCount < Config.hdrLen then .next (s.raiseError (encode .hdrExtract) .malformed false false)
  else if d.toNat < Config.minPacket then
    .next (((s.setRxLen d).setRemain 0x00#8).raiseError (encode .hdrExtract) .malformed false false)
  else
    .next (((s.setRxLen d).setRemain (BitVec.ofNat 8 (d.toNat - 4))).succeed (encode .hdrExtract) false true)

/-- CHK_WAKE (R76): the CRC is checked before the status byte (D20), and LEN_OK is reported only. -/
def execChkWake (s : State) : Host.Outcome State Fault Refusal :=
  if s.inCount ≠ Config.wakeLen then .next (s.raiseError (encode .chkWake) .malformed false false)
  else
    let c := crc16 (s.inSlice 0 2)
    let k := s.trailer 4
    let extracted := ((s.setCrc c).setClaim k).setRxLen (s.inByte 0)
    let lenOk := (s.inByte 0).toNat == 4
    if c ≠ k then .next (extracted.raiseError (encode .chkWake) .checksumMismatch false lenOk)
    else if s.inByte 1 ≠ Config.wakeAck then
      .next (extracted.raiseError (encode .chkWake) .wakeRejected true lenOk)
    else .next (extracted.succeed (encode .chkWake) true lenOk)

end Sys2Proof.Machine
end

