-- ==== Sys2Proof/Machine/Dispatch.lean ====
section
/-! DEFINITION. One arm per block command (R46). -/

namespace Sys2Proof.Machine

-- The dispatch of R46: each command's own rule, completion included.
def exec (i : Instr) (s : State) : Host.Outcome State Fault Refusal :=
  match i with
  | .crcClr => Sys2Proof.Machine.execCrcClr s
  | .crcByte => Sys2Proof.Machine.execCrcByte s
  | .crcBuf => Sys2Proof.Machine.execCrcBuf s
  | .crcCmp => Sys2Proof.Machine.execCrcCmp s
  | .valTrailer => Sys2Proof.Machine.execValTrailer s
  | .frameCmd => Sys2Proof.Machine.execFrameCmd s
  | .valResp => Sys2Proof.Machine.execValResp s
  | .hdrExtract => Sys2Proof.Machine.execHdrExtract s
  | .chkWake => Sys2Proof.Machine.execChkWake s

end Sys2Proof.Machine
end

