-- ==== Sys2Proof/Machine/Bus.lean ====
section
/-! DEFINITION. The host's moves: read (R33), write (R34) and reset (R93). -/

namespace Sys2Proof.Machine

/-- The byte at a register address, the "host read" column of R32. -/
def readReg (s : State) (r : HostReg) : Byte :=
  match r with
  | .cmd => s.lastcmd
  | .status => s.status
  | .errcode => s.errcode
  | .inLen => s.inLen
  | .outLen => s.outLen
  | .prefixReg => s.prefixReg
  | .data => s.data
  | .crcLo => lowByte s.crc
  | .crcHi => highByte s.crc
  | .claimLo => lowByte s.claim
  | .claimHi => highByte s.claim
  | .rxLen => s.rxLen
  | .remain => s.remain

/-- `MemRead(a, 1)` (R33): the byte; no read changes the state. A reserved address reads 0x00 (D8). -/
def hostRead (s : State) (a : Addr) : Byte :=
  match placeOf a with
  | .inByte i => s.inBuf.read i
  | .outByte i => s.outBuf.read i
  | .reg r => readReg s r
  | .reserved => 0x00#8

/-- A write of `v` to CMD (R46): the command whose code is `v`, or ILLEGAL_COMMAND (R48), as one atomic step (R39). -/
def startCommand (v : Byte) (s : State) : Host.Outcome State Fault Refusal :=
  match decode v with
  | .ok i => exec i s
  | .error _ => .next (illegalCommand v s)

/-- A write to a register address, the "host write" column of R32. -/
def writeReg (s : State) (r : HostReg) (v : Byte) : Host.Outcome State Fault Refusal :=
  match r with
  | .cmd => startCommand v s
  | .inLen => .next (s.setInLen v)
  | .prefixReg => .next (s.setPrefixReg v)
  | .data => .next (s.setData v)
  | .claimLo => .next (s.setClaimLow v)
  | .claimHi => .next (s.setClaimHigh v)
  | .status | .errcode | .outLen | .crcLo | .crcHi | .rxLen | .remain => .next s

/-- `MemWrite(a, 1, v)` (R34): a write to OUT, a read-only register or a reserved address is ignored (D9). -/
def hostWrite (s : State) (a : Addr) (v : Byte) : Host.Outcome State Fault Refusal :=
  match placeOf a with
  | .inByte i => .next (s.setInByte i v)
  | .outByte _ => .next s
  | .reg r => writeReg s r v
  | .reserved => .next s

/-- Asserting reset (R93): every element at its reset value. It begins a new run, so the observation is empty (R44; log
entry 4); the host's remaining moves are the host's, not the block's, and stay. -/
def assertReset (s : State) : State := State.reset.setPending s.pending

/-- One move of the host, performed whole (R38, R39, R94). -/
def performMove (m : HostMove) (s : State) : Host.Outcome State Fault Refusal :=
  match m with
  | .read a => .next (s.observe (hostRead s a))
  | .write a v => hostWrite s a v
  | .reset => .next (assertReset s)

/-- The host's next move. With none waiting the block does nothing: it "never starts anything by itself" (20_memory.md
section 1; log entry 2). -/
def nextMove (s : State) : Host.Outcome State Fault Refusal :=
  match s.pending with
  | [] => .next s
  | m :: rest => performMove m (s.setPending rest)

end Sys2Proof.Machine
end

