-- ==== Sys2Proof/Machine/HostProgram.lean ====
section
/-! DEFINITION. The host-program notation: pseudo-instructions spelled as accesses (R57, R58). -/

namespace Sys2Proof.Machine

/-- `WR IN+k, b` for each byte of a sequence, from index `k` on. -/
def loadWrites : Nat → List Byte → List HostMove
  | _, [] => []
  | k, b :: bs => .write (inAddr k) b :: loadWrites (k + 1) bs

/-- The accesses a pseudo-instruction stands for (R58). -/
def expand (p : Pseudo) : List HostMove :=
  match p with
  | .command i => [.write (regAddr .cmd) (encode i)]
  | .load bs => loadWrites 0 bs ++ [.write (regAddr .inLen) (BitVec.ofNat 8 bs.length)]
  | .setClaim c => [.write (regAddr .claimLo) (lowByte c), .write (regAddr .claimHi) (highByte c)]
  | .feed b => [.write (regAddr .data) b, .write (regAddr .cmd) (encode .crcByte)]
  | .rdCrc => [.read (regAddr .crcLo), .read (regAddr .crcHi)]
  | .rdOut k => (List.range k).map (fun i => .read (outAddr i))

/-- The accesses of a list of pseudo-instructions, in order: "nothing more" than the accesses on the right (R58). -/
def expandAll (ps : List Pseudo) : List HostMove := ps.flatMap expand

end Sys2Proof.Machine
end

