-- ==== Sys2Proof/Machine/Step.lean ====
section
/-! DEFINITION. One step of the machine: the host's next move (R38). -/

namespace Sys2Proof.Machine

/-- One step. The block has no program counter (R15): the order of operations is the order of the host's moves. -/
def step (s : State) : Host.Outcome State Fault Refusal := nextMove s

/-- `s` with the host about to write the table word's byte to CMD, so that the very next step runs that command. The
block fetches nothing (R42): a command comes from outside, as a host write (log entry 3). -/
def State.withFetchWord (s : State) (nbits w : Nat) : State :=
  s.setPending (.write (regAddr .cmd) (tableByte nbits w) :: s.pending)

end Sys2Proof.Machine
end

