-- ==== Sys2Proof/Safety.lean ====
section
/-! DEFINITION. The terms the statements use: the elements of R13, what a step keeps, R47's table of reads, writes and
errors, the invariant of the block, and a run. -/

namespace Sys2Proof.Machine

/-- The state elements of R13. -/
inductive Element where
  | lastcmd | status | errcode | inLen | outLen | prefixReg | data | crc | claim | rxLen | remain | inBuf | outBuf
  deriving DecidableEq, Repr

/-- `e` holds in `t` what it holds in `s`; a buffer is compared by reading each of its bytes. -/
def Element.same (e : Element) (s t : State) : Prop :=
  match e with
  | .lastcmd => t.lastcmd = s.lastcmd
  | .status => t.status = s.status
  | .errcode => t.errcode = s.errcode
  | .inLen => t.inLen = s.inLen
  | .outLen => t.outLen = s.outLen
  | .prefixReg => t.prefixReg = s.prefixReg
  | .data => t.data = s.data
  | .crc => t.crc = s.crc
  | .claim => t.claim = s.claim
  | .rxLen => t.rxLen = s.rxLen
  | .remain => t.remain = s.remain
  | .inBuf => ∀ i : Nat, t.inBuf.read i = s.inBuf.read i
  | .outBuf => ∀ i : Nat, t.outBuf.read i = s.outBuf.read i

/-- Every element of R13 but those of `written` is unchanged, every byte of IN and OUT included. -/
def sameExcept (written : List Element) (s t : State) : Prop := ∀ e : Element, e ∉ written → e.same s t

/-- The host's side is unchanged: its remaining moves and what it has read. -/
def sameHost (s t : State) : Prop := t.pending = s.pending ∧ t.observed = s.observed

/-- The frame of a command: every element but those of `written` and the host's side are unchanged. -/
def frameExcept (written : List Element) (s t : State) : Prop := sameExcept written s t ∧ sameHost s t

/-- The three registers every command writes (R46). -/
def completionWrites : List Element := [.lastcmd, .status, .errcode]

/-- The completion of command `v` (R46): LASTCMD, ERRCODE and STATUS hold these values. -/
def completedWith (t : State) (v errcode status : Byte) : Prop :=
  t.lastcmd = v ∧ t.errcode = errcode ∧ t.status = status

/-- OUT holds `bs` at its start and 0x00 up to OUT[255], and OUT_LEN is the number of bytes (R20, R28). -/
def outHolds (t : State) (bs : List Byte) : Prop :=
  t.outLen.toNat = bs.length ∧ ∀ i : Nat, t.outBuf.read i = bs.getD i 0x00#8

/-- The "reads" column of R47. -/
def tableReads (i : Instr) : List Element :=
  match i with
  | .crcClr => []
  | .crcByte => [.crc, .data]
  | .crcBuf => [.inLen, .inBuf]
  | .crcCmp => [.inLen, .inBuf, .claim]
  | .valTrailer => [.inLen, .inBuf]
  | .frameCmd => [.inLen, .inBuf, .prefixReg]
  | .valResp => [.inLen, .inBuf]
  | .hdrExtract => [.inLen, .inBuf]
  | .chkWake => [.inLen, .inBuf]

/-- The "writes" column of R47, besides LASTCMD, STATUS and ERRCODE. -/
def tableWrites (i : Instr) : List Element :=
  match i with
  | .crcClr => [.crc]
  | .crcByte => [.crc]
  | .crcBuf => [.crc]
  | .crcCmp => [.crc]
  | .valTrailer => [.crc, .claim]
  | .frameCmd => [.crc, .outBuf, .outLen]
  | .valResp => [.crc, .claim, .rxLen, .outBuf, .outLen]
  | .hdrExtract => [.rxLen, .remain]
  | .chkWake => [.crc, .claim, .rxLen]

/-- The "errors" column of R47. -/
def tableErrors (i : Instr) : List ErrorCode :=
  match i with
  | .crcClr => []
  | .crcByte => []
  | .crcBuf => []
  | .crcCmp => []
  | .valTrailer => [.malformed]
  | .frameCmd => [.invalidSize]
  | .valResp => [.malformed, .checksumMismatch]
  | .hdrExtract => [.malformed]
  | .chkWake => [.malformed, .checksumMismatch, .wakeRejected]

/-- `s` and `t` agree on what a command may read of element `e`: of IN only the bytes below IN_LEN (R19, R100). -/
def Element.agree (e : Element) (s t : State) : Prop :=
  match e with
  | .inBuf => ∀ i : Nat, i < s.inLen.toNat → t.inBuf.read i = s.inBuf.read i
  | e => e.same s t

/-- The OUT invariant of R29: every byte at or above OUT_LEN is 0x00. -/
def outTailZero (s : State) : Prop := ∀ i : Nat, s.outLen.toNat ≤ i → i < 256 → s.outBuf.read i = 0x00#8

/-- The invariant of the block: both buffers in canonical form, the reserved STATUS bits 0 and ERR set exactly when ERRCODE
is not NONE (R17), ERRCODE one of its six values (R18), REMAIN at most 251 (R26), and the OUT invariant (R29). -/
structure State.Inv (s : State) : Prop where
  inWf : s.inBuf.wf = true
  outWf : s.outBuf.wf = true
  statusReserved : s.status.toNat < 8
  errIffErrcode : s.errFlag = true ↔ s.errcode ≠ 0x00#8
  errcodeRange : s.errcode.toNat ≤ 5
  remainRange : s.remain.toNat ≤ 251
  outTail : outTailZero s

/-- The number of reads among a list of moves. -/
def readCount : List HostMove → Nat
  | [] => 0
  | .read _ :: ms => readCount ms + 1
  | .write _ _ :: ms => readCount ms
  | .reset :: ms => readCount ms

/-- A list of host accesses: moves with no reset among them (R44). -/
def accessesOnly (ms : List HostMove) : Prop := HostMove.reset ∉ ms

/-- `k` steps of the machine. -/
def run (k : Nat) (s : State) : Host.Outcome State Fault Refusal := Sys2Proof.core.run k s

/-- PRESUMED (log entry 10): one data bit of the catalogue CRC-16/ARC, in its usual reflected form: the register shifts
right and 0xA001, the bit-reversal of the polynomial, is XORed in. -/
def arcBit (c : Word) (dataBit : Bool) : Word :=
  if dataBit ^^ c.getLsbD 0 then (c >>> 1) ^^^ 0xA001#16 else c >>> 1

/-- PRESUMED (log entry 10): the catalogue CRC-16/ARC: initial value 0, each byte bit 0 first, no final XOR. -/
def catalogueArc (bytes : List Byte) : Word :=
  bytes.foldl (fun c b => [0, 1, 2, 3, 4, 5, 6, 7].foldl (fun c i => arcBit c (b.getLsbD i)) c) 0x0000#16

end Sys2Proof.Machine
end

