-- ==== Sys2Proof/Certificates/Slice0/Obligations.lean ====
section
/-! DEFINITION. The statements for the provers, one per numbered rule or group of rules of spec/. -/

open Sys2Proof Sys2Proof.Machine

/-! ## The CRC function (40_crc.md) -/

/-- R59, the algorithm written with numbers: the register doubled modulo 2^16, and 0x8005 XORed in when the data bit and
the register's top bit differ, for data bits 0 to 7 in order. -/
def Obligations.CrcStepIsTheBitSerialRegister : Prop :=
  (∀ (c : Word) (b : Byte),
    crcStep c b = [0, 1, 2, 3, 4, 5, 6, 7].foldl
      (fun r i => if b.toNat.testBit i != decide (0x8000 ≤ r.toNat) then BitVec.ofNat 16 (2 * r.toNat) ^^^ 0x8005#16
        else BitVec.ofNat 16 (2 * r.toNat)) c) ∧
  [0x8005#16, 0x800F#16, 0x801B#16, 0x8033#16, 0x8063#16, 0x80C3#16, 0x8183#16, 0x8303#16] =
    ((dataBits 0x01#8).scanl crcBit 0x0000#16).drop 1 ∧
  crcStep 0x0000#16 0x01#8 = 0x8303#16

/-- R62: the CRC of no bytes. -/
def Obligations.EmptyInputHasCrcZero : Prop := crc16 [] = 0x0000#16

/-- R63: the streaming law, and CRC_CLR followed by one CRC_BYTE per byte, run as host moves, leaves the CRC that CRC_BUF
gives for the same bytes in IN. -/
def Obligations.StreamedBytesLeaveTheirCrc : Prop :=
  (∀ (bs : List Byte) (b : Byte), crc16 (bs ++ [b]) = crcStep (crc16 bs) b) ∧
  ∀ (s : State) (bs : List Byte) (rest : List HostMove),
    s.pending = expand (.command .crcClr) ++ expandAll (bs.map .feed) ++ rest →
    ∃ t, run (1 + 2 * bs.length) s = .next t ∧ t.crc = crc16 bs ∧ t.pending = rest ∧
      ∀ u : State, u.inSlice 0 u.inLen.toNat = bs → ∃ w, exec .crcBuf u = .next w ∧ w.crc = t.crc

/-- R70: linearity, zero prefixes, and the warning that an all-zero response passes. -/
def Obligations.CrcIsLinearAndBlindToLeadingZeros : Prop :=
  (∀ a b : List Byte, a.length = b.length → crc16 (List.zipWith (· ^^^ ·) a b) = crc16 a ^^^ crc16 b) ∧
  crc16 [0x01#8] ^^^ crc16 [0x02#8] = 0x0280#16 ∧ crc16 [0x03#8] = 0x0280#16 ∧
  (∀ (k : Nat) (bs : List Byte), crc16 (List.replicate k 0x00#8 ++ bs) = crc16 bs) ∧
  (∀ k : Nat, crc16 (List.replicate k 0x00#8) = 0x0000#16) ∧
  ∀ s : State, s.inLen = 0x04#8 → s.inSlice 0 4 = [0x00#8, 0x00#8, 0x00#8, 0x00#8] →
    ∃ t, exec .valResp s = .next t ∧ t.errcode = 0x00#8 ∧ t.matchFlag = true

/-- R71: no constant residue. -/
def Obligations.NoConstantResidue : Prop :=
  crc16 ([0x01#8] ++ leBytes 0x8303#16) = 0x0889#16 ∧ crc16 ([0x04#8, 0x11#8] ++ leBytes 0x4333#16) = 0x202C#16

/-- R60: the block's CRC is the bit-reversal of the catalogue CRC-16/ARC. The catalogue CRC is general knowledge, not the
spec's: log entry 10. -/
def Obligations.CrcIsTheReversedCatalogueArc : Prop :=
  (∀ bs : List Byte, (crc16 bs).reverse = catalogueArc bs) ∧
  crc16 [0x31#8, 0x32#8, 0x33#8, 0x34#8, 0x35#8, 0x36#8, 0x37#8, 0x38#8, 0x39#8] = 0xBCDD#16 ∧
  catalogueArc [0x31#8, 0x32#8, 0x33#8, 0x34#8, 0x35#8, 0x36#8, 0x37#8, 0x38#8, 0x39#8] = 0xBB3D#16

/-- A consequence of R59: a zero byte leaves exactly two register values alone, 0x0000 and 0x8003. R65's corner case says
"With CRC != 0x0000, DATA = 0x00 still changes CRC", which its own pseudocode contradicts at 0x8003 alone (log entry 11). -/
def Obligations.ZeroByteKeepsOnlyTwoRegisterValues : Prop :=
  ∀ c : Word, crcStep c 0x00#8 = c ↔ c = 0x0000#16 ∨ c = 0x8003#16

/-! ## The CRC commands (40_crc.md) -/

/-- R64, CRC_CLR, with its frame. -/
def Obligations.CrcClrClearsTheAccumulator : Prop :=
  ∀ s : State, ∃ t, exec .crcClr s = .next t ∧ t.crc = 0x0000#16 ∧ completedWith t 0x01#8 0x00#8 0x00#8 ∧
    frameExcept (.crc :: completionWrites) s t

/-- R65, CRC_BYTE, with its frame and the corner case of a zero byte in a zero register. -/
def Obligations.CrcByteFeedsDataIntoTheRunningCrc : Prop :=
  ∀ s : State, ∃ t, exec .crcByte s = .next t ∧ t.crc = crcStep s.crc s.data ∧ completedWith t 0x02#8 0x00#8 0x00#8 ∧
    frameExcept (.crc :: completionWrites) s t ∧
    (s.data = 0x00#8 → s.crc = 0x0000#16 → t.crc = 0x0000#16)

/-- R66, CRC_BUF, with its frame. -/
def Obligations.CrcBufComputesTheCrcOfTheInput : Prop :=
  ∀ s : State, ∃ t, exec .crcBuf s = .next t ∧ t.crc = crc16 (s.inSlice 0 s.inLen.toNat) ∧
    completedWith t 0x03#8 0x00#8 0x00#8 ∧ frameExcept (.crc :: completionWrites) s t ∧
    (s.inLen = 0x00#8 → t.crc = 0x0000#16)

/-- R67, CRC_CMP, with its frame. -/
def Obligations.CrcCmpReportsWhetherTheClaimMatches : Prop :=
  ∀ s : State, ∃ t, exec .crcCmp s = .next t ∧ t.crc = crc16 (s.inSlice 0 s.inLen.toNat) ∧
    completedWith t 0x04#8 0x00#8 (if crc16 (s.inSlice 0 s.inLen.toNat) = s.claim then 0x02#8 else 0x00#8) ∧
    frameExcept (.crc :: completionWrites) s t ∧
    (s.inLen = 0x00#8 → (t.status = 0x02#8 ↔ s.claim = 0x0000#16))

/-- R68, VAL_TRAILER, both branches, with their frames. -/
def Obligations.ValTrailerChecksTheLastTwoBytes : Prop :=
  ∀ s : State, ∃ t, exec .valTrailer s = .next t ∧
    if s.inLen.toNat < 2 then completedWith t 0x05#8 0x01#8 0x01#8 ∧ frameExcept completionWrites s t
    else
      t.crc = crc16 (s.inSlice 0 (s.inLen.toNat - 2)) ∧
      t.claim.toNat = (s.inByte (s.inLen.toNat - 2)).toNat + 256 * (s.inByte (s.inLen.toNat - 1)).toNat ∧
      completedWith t 0x05#8 0x00#8 (if t.crc = t.claim then 0x02#8 else 0x00#8) ∧
      frameExcept (.crc :: .claim :: completionWrites) s t

/-- R69: loading any bytes with their own trailer and running VAL_TRAILER gives a match. The buffer starts canonical, which
every step keeps (StepKeepsTheInvariant). -/
def Obligations.TrailerRoundTrip : Prop :=
  ∀ (s : State) (bs : List Byte) (rest : List HostMove), s.inBuf.wf = true → bs.length ≤ 253 →
    s.pending = expand (.load (bs ++ leBytes (crc16 bs))) ++ expand (.command .valTrailer) ++ rest →
    ∃ t, run (bs.length + 4) s = .next t ∧ t.pending = rest ∧ t.matchFlag = true ∧ t.errcode = 0x00#8

/-! ## The packet commands (41_frame.md) -/

/-- R73, FRAME_CMD, both branches, with their frames. -/
def Obligations.FrameCmdBuildsTheCommandFrame : Prop :=
  ∀ s : State, ∃ t, exec .frameCmd s = .next t ∧
    if s.inLen.toNat = 0 ∨ 252 ≤ s.inLen.toNat then
      outHolds t [] ∧ completedWith t 0x06#8 0x03#8 0x01#8 ∧ frameExcept (.outBuf :: .outLen :: completionWrites) s t
    else
      t.crc = crc16 (BitVec.ofNat 8 (s.inLen.toNat + 3) :: s.inSlice 0 s.inLen.toNat) ∧
      outHolds t ([s.prefixReg, BitVec.ofNat 8 (s.inLen.toNat + 3)] ++ s.inSlice 0 s.inLen.toNat ++
        [lowByte t.crc, highByte t.crc]) ∧
      completedWith t 0x06#8 0x00#8 0x00#8 ∧
      frameExcept (.crc :: .outBuf :: .outLen :: completionWrites) s t

/-- R74, VAL_RESP, its three branches, with their frames. -/
def Obligations.ValRespValidatesAndExtractsThePayload : Prop :=
  ∀ s : State, ∃ t, exec .valResp s = .next t ∧
    if s.inLen.toNat < 4 then
      outHolds t [] ∧ completedWith t 0x07#8 0x01#8 0x01#8 ∧ frameExcept (.outBuf :: .outLen :: completionWrites) s t
    else
      t.crc = crc16 (s.inSlice 0 (s.inLen.toNat - 2)) ∧
      t.claim.toNat = (s.inByte (s.inLen.toNat - 2)).toNat + 256 * (s.inByte (s.inLen.toNat - 1)).toNat ∧
      t.rxLen = s.inByte 0 ∧
      frameExcept (.crc :: .claim :: .rxLen :: .outBuf :: .outLen :: completionWrites) s t ∧
      if t.crc = t.claim then
        outHolds t (s.inSlice 1 (s.inLen.toNat - 2)) ∧
        completedWith t 0x07#8 0x00#8 (if s.inByte 0 = s.inLen then 0x06#8 else 0x02#8)
      else
        outHolds t [] ∧ completedWith t 0x07#8 0x02#8 (if s.inByte 0 = s.inLen then 0x05#8 else 0x01#8)

/-- R75, HDR_EXTRACT, its three branches, with their frames. -/
def Obligations.HdrExtractReadsTheDeclaredLength : Prop :=
  ∀ s : State, ∃ t, exec .hdrExtract s = .next t ∧
    if s.inLen.toNat < 4 then completedWith t 0x08#8 0x01#8 0x01#8 ∧ frameExcept completionWrites s t
    else
      t.rxLen = s.inByte 0 ∧ frameExcept (.rxLen :: .remain :: completionWrites) s t ∧
      if (s.inByte 0).toNat < 4 then t.remain = 0x00#8 ∧ completedWith t 0x08#8 0x01#8 0x01#8
      else t.remain.toNat + 4 = (s.inByte 0).toNat ∧ completedWith t 0x08#8 0x00#8 0x04#8

/-- R76, CHK_WAKE, its four branches, with their frames. -/
def Obligations.ChkWakeAcceptsOnlyTheWakeAcknowledge : Prop :=
  ∀ s : State, ∃ t, exec .chkWake s = .next t ∧
    if s.inLen ≠ 0x04#8 then completedWith t 0x09#8 0x01#8 0x01#8 ∧ frameExcept completionWrites s t
    else
      t.crc = crc16 [s.inByte 0, s.inByte 1] ∧
      t.claim.toNat = (s.inByte 2).toNat + 256 * (s.inByte 3).toNat ∧
      t.rxLen = s.inByte 0 ∧
      frameExcept (.crc :: .claim :: .rxLen :: completionWrites) s t ∧
      if t.crc ≠ t.claim then completedWith t 0x09#8 0x02#8 (if s.inByte 0 = 0x04#8 then 0x05#8 else 0x01#8)
      else if s.inByte 1 ≠ 0x11#8 then completedWith t 0x09#8 0x04#8 (if s.inByte 0 = 0x04#8 then 0x07#8 else 0x03#8)
      else completedWith t 0x09#8 0x00#8 (if s.inByte 0 = 0x04#8 then 0x06#8 else 0x02#8)

/-- R77: the framing round trip. -/
def Obligations.FramedLengthsRoundTrip : Prop :=
  ∀ s : State, 1 ≤ s.inLen.toNat → s.inLen.toNat ≤ 251 →
    ∃ t, exec .frameCmd s = .next t ∧ t.errcode = 0x00#8 ∧ t.outLen.toNat = s.inLen.toNat + 4 ∧
      (t.outBuf.read 1).toNat = s.inLen.toNat + 3

/-- R78: the payload of a valid response is three bytes shorter than the packet. -/
def Obligations.ValidatedPayloadIsThreeBytesShorter : Prop :=
  ∀ s : State, 4 ≤ s.inLen.toNat → crc16 (s.inSlice 0 (s.inLen.toNat - 2)) = s.trailer s.inLen.toNat →
    ∃ t, exec .valResp s = .next t ∧ t.errcode = 0x00#8 ∧ t.outLen.toNat = s.inLen.toNat - 3

/-- R79: a short packet is MALFORMED, and a packet that was correct before one bit of its trailer changed is rejected with
CHECKSUM_MISMATCH. `u` is `s` with bit `k` of byte `j`, one of the last two, flipped. -/
def Obligations.ShortOrTamperedResponsesAreRejected : Prop :=
  (∀ s : State, s.inLen.toNat < 4 → ∃ t, exec .valResp s = .next t ∧ t.errcode = 0x01#8) ∧
  ∀ (s u : State) (j k : Nat), 4 ≤ s.inLen.toNat → crc16 (s.inSlice 0 (s.inLen.toNat - 2)) = s.trailer s.inLen.toNat →
    u.inLen = s.inLen → (j = s.inLen.toNat - 2 ∨ j = s.inLen.toNat - 1) → k < 8 →
    (∀ i : Nat, u.inByte i = if i = j then s.inByte i ^^^ BitVec.ofNat 8 (2 ^ k) else s.inByte i) →
    ∃ t, exec .valResp u = .next t ∧ t.errcode = 0x02#8

/-- R80: what FRAME_CMD builds, VAL_RESP takes apart: the frame without its prefix, given back as a packet, validates and
yields the body. -/
def Obligations.EncoderAndDecoderAgree : Prop :=
  ∀ s t u : State, exec .frameCmd s = .next t → t.errcode = 0x00#8 →
    u.inLen.toNat = s.inLen.toNat + 3 → (∀ i : Nat, i < s.inLen.toNat + 3 → u.inByte i = t.outBuf.read (i + 1)) →
    (u.inByte 0).toNat = s.inLen.toNat + 3 ∧
    ∃ w, exec .valResp u = .next w ∧ completedWith w 0x07#8 0x00#8 0x06#8 ∧ outHolds w (s.inSlice 0 s.inLen.toNat)

/-- R81: a header that HDR_EXTRACT accepts, followed by as many bytes as REMAIN says, is a packet whose length field is
right, so the verdict on it depends on the CRC alone. -/
def Obligations.HeaderThenPacketHasAConsistentLength : Prop :=
  ∀ s t u : State, s.inLen = 0x04#8 → exec .hdrExtract s = .next t → t.errcode = 0x00#8 →
    u.inLen.toNat = 4 + t.remain.toNat → (∀ i : Nat, i < 4 → u.inByte i = s.inByte i) →
    u.inLen = u.inByte 0 ∧
    ∃ w, exec .valResp u = .next w ∧ w.lenOkFlag = true ∧
      (w.errcode = 0x00#8 ↔ crc16 (u.inSlice 0 (u.inLen.toNat - 2)) = u.trailer u.inLen.toNat) ∧
      (w.errcode = 0x00#8 ∨ w.errcode = 0x02#8)

/-- R28: whenever VAL_RESP reports an error, no byte of the packet is readable in OUT. -/
def Obligations.RejectedPacketsExposeNoPayload : Prop :=
  ∀ s t : State, exec .valResp s = .next t → t.errcode ≠ 0x00#8 →
    t.outLen = 0x00#8 ∧ ∀ a : Addr, 0x100 ≤ a.toNat → a.toNat ≤ 0x1FF → hostRead t a = 0x00#8

/-! ## Commands in general (30_encoding.md, 60_exceptions.md, 70_reset_and_hazards.md) -/

/-- R47: the codes of the table, written out, decode to their commands. -/
def Obligations.TableCodesDecodeToTheirCommands : Prop :=
  decode 0b00000001#8 = .ok .crcClr ∧ decode 0b00000010#8 = .ok .crcByte ∧ decode 0b00000011#8 = .ok .crcBuf ∧
  decode 0b00000100#8 = .ok .crcCmp ∧ decode 0b00000101#8 = .ok .valTrailer ∧ decode 0b00000110#8 = .ok .frameCmd ∧
  decode 0b00000111#8 = .ok .valResp ∧ decode 0b00001000#8 = .ok .hdrExtract ∧ decode 0b00001001#8 = .ok .chkWake

/-- R47: decoding and encoding agree in both directions. -/
def Obligations.DecodeAndEncodeAgree : Prop :=
  (∀ i : Instr, decode (encode i) = .ok i) ∧ ∀ (v : Byte) (i : Instr), decode v = .ok i → encode i = v

/-- R46: when the host's next move writes a legal code to CMD, the step is that command's meaning on the state with the
move taken; and the model's fetch word runs the same command. -/
def Obligations.StepRunsTheDecodedCommand : Prop :=
  (∀ (s : State) (v : Byte) (i : Instr) (rest : List HostMove), s.pending = .write 0x200#10 v :: rest →
    decode v = .ok i → step s = exec i (s.setPending rest)) ∧
  ∀ (s : State) (i : Instr), step (s.withFetchWord 8 (encode i).toNat) = exec i s

/-- R48: every code outside the table, 247 in all, is recorded in LASTCMD and raises ILLEGAL_COMMAND, and nothing else of
the block changes. -/
def Obligations.IllegalCodesRaiseIllegalCommand : Prop :=
  (∀ v : Byte, (∀ i, decode v ≠ .ok i) ↔ v = 0x00#8 ∨ 0x0A ≤ v.toNat) ∧
  ((List.range 256).filter (fun n => decide (n = 0 ∨ 0x0A ≤ n))).length = 247 ∧
  ∀ (s : State) (v : Byte) (rest : List HostMove), s.pending = .write 0x200#10 v :: rest →
    (v = 0x00#8 ∨ 0x0A ≤ v.toNat) →
    ∃ t, step s = .next t ∧ completedWith t v 0x05#8 0x01#8 ∧ t.pending = rest ∧ t.observed = s.observed ∧
      sameExcept completionWrites s t

/-- R47, the "writes" column: a command changes nothing but its row's elements, LASTCMD, STATUS and ERRCODE. -/
def Obligations.CommandsWriteOnlyTheirTableRow : Prop :=
  ∀ (i : Instr) (s t : State), exec i s = .next t → frameExcept (tableWrites i ++ completionWrites) s t

/-- R47, the "errors" column: a command reports NONE or an error of its row, and every error of its row can occur. -/
def Obligations.CommandsReportExactlyTheirTableErrors : Prop :=
  (∀ (i : Instr) (s t : State), exec i s = .next t → ∃ e ∈ ErrorCode.none :: tableErrors i, t.errcode = e.code) ∧
  ∀ (i : Instr) (e : ErrorCode), e ∈ ErrorCode.none :: tableErrors i →
    ∃ s t : State, exec i s = .next t ∧ t.errcode = e.code

/-- R47, the "reads" column, and R19: two states that agree on what a command's row says it reads (of IN only the bytes
below IN_LEN) give the same LASTCMD, ERRCODE and STATUS, and each element of the row's "writes" column is either the same
after both, so its old value plays no part in it, or left unchanged in both. -/
def Obligations.CommandsReadOnlyTheirTableRow : Prop :=
  ∀ (i : Instr) (s s' t t' : State), (∀ e ∈ tableReads i, e.agree s s') → exec i s = .next t → exec i s' = .next t' →
    (∀ e ∈ completionWrites, e.same t t') ∧ ∀ e ∈ tableWrites i, e.same t t' ∨ (e.same s t ∧ e.same s' t')

/-- R100: a byte of IN at or above IN_LEN is kept and ignored by every command. -/
def Obligations.StaleInputBytesAreIgnored : Prop :=
  ∀ (i : Instr) (s t : State) (k : Nat) (v : Byte), exec i s = .next t → s.inLen.toNat ≤ k →
    exec i (s.setInByte k v) = .next (t.setInByte k v)

/-- R17: MATCH and LEN_OK are set only by the commands R17 lists, ERR exactly when ERRCODE is not NONE, and the reserved
bits are 0. -/
def Obligations.StatusFlagsAreSetOnlyAsListed : Prop :=
  ∀ (i : Instr) (s t : State), exec i s = .next t →
    (t.matchFlag = true → i ∈ [Instr.crcCmp, .valTrailer, .valResp, .chkWake]) ∧
    (t.lenOkFlag = true → i ∈ [Instr.valResp, .hdrExtract, .chkWake]) ∧
    (t.errFlag = true ↔ t.errcode ≠ 0x00#8) ∧ t.status.toNat < 8

/-- R85: a command reports the first check that fails in R85's order; an illegal code reports ILLEGAL_COMMAND. -/
def Obligations.TheFirstFailingCheckIsReported : Prop :=
  ∀ s : State,
    (∃ t, exec .valTrailer s = .next t ∧ t.errcode = if s.inLen.toNat < 2 then 0x01#8 else 0x00#8) ∧
    (∃ t, exec .frameCmd s = .next t ∧
      t.errcode = if s.inLen.toNat = 0 ∨ 251 < s.inLen.toNat then 0x03#8 else 0x00#8) ∧
    (∃ t, exec .valResp s = .next t ∧ t.errcode =
      if s.inLen.toNat < 4 then 0x01#8
      else if crc16 (s.inSlice 0 (s.inLen.toNat - 2)) ≠ s.trailer s.inLen.toNat then 0x02#8 else 0x00#8) ∧
    (∃ t, exec .hdrExtract s = .next t ∧ t.errcode =
      if s.inLen.toNat < 4 then 0x01#8 else if (s.inByte 0).toNat < 4 then 0x01#8 else 0x00#8) ∧
    (∃ t, exec .chkWake s = .next t ∧ t.errcode =
      if s.inLen.toNat ≠ 4 then 0x01#8
      else if crc16 (s.inSlice 0 2) ≠ s.trailer 4 then 0x02#8
      else if s.inByte 1 ≠ 0x11#8 then 0x04#8 else 0x00#8) ∧
    ∀ v : Byte, (∀ i, decode v ≠ .ok i) → ∃ t, hostWrite s 0x200#10 v = .next t ∧ t.errcode = 0x05#8

/-- R83: a CRC mismatch is no error for CRC_CMP and VAL_TRAILER, and is one for VAL_RESP and CHK_WAKE; a wrong length byte
changes no ERRCODE of VAL_RESP and CHK_WAKE and is reported as LEN_OK = 0 whatever the verdict, a CRC mismatch or a rejected
status byte included; HDR_EXTRACT rejects a declared length exactly when it is below 4, whether or not it is IN_LEN. -/
def Obligations.MismatchesAreErrorsOnlyWhereListed : Prop :=
  ∀ s : State,
    (∃ t, exec .crcCmp s = .next t ∧ t.errcode = 0x00#8 ∧
      (t.matchFlag = true ↔ crc16 (s.inSlice 0 s.inLen.toNat) = s.claim)) ∧
    (2 ≤ s.inLen.toNat → ∃ t, exec .valTrailer s = .next t ∧ t.errcode = 0x00#8 ∧
      (t.matchFlag = true ↔ crc16 (s.inSlice 0 (s.inLen.toNat - 2)) = s.trailer s.inLen.toNat)) ∧
    (4 ≤ s.inLen.toNat → crc16 (s.inSlice 0 (s.inLen.toNat - 2)) ≠ s.trailer s.inLen.toNat →
      ∃ t, exec .valResp s = .next t ∧ t.errcode = 0x02#8) ∧
    (s.inLen.toNat = 4 → crc16 (s.inSlice 0 2) ≠ s.trailer 4 → ∃ t, exec .chkWake s = .next t ∧ t.errcode = 0x02#8) ∧
    (4 ≤ s.inLen.toNat → s.inByte 0 ≠ s.inLen → ∃ t, exec .valResp s = .next t ∧ t.lenOkFlag = false ∧
      t.errcode = if crc16 (s.inSlice 0 (s.inLen.toNat - 2)) = s.trailer s.inLen.toNat then 0x00#8 else 0x02#8) ∧
    (s.inLen.toNat = 4 → s.inByte 0 ≠ 0x04#8 → ∃ t, exec .chkWake s = .next t ∧ t.lenOkFlag = false ∧
      t.errcode = if crc16 (s.inSlice 0 2) ≠ s.trailer 4 then 0x02#8
        else if s.inByte 1 ≠ 0x11#8 then 0x04#8 else 0x00#8) ∧
    (4 ≤ s.inLen.toNat → ∃ t, exec .hdrExtract s = .next t ∧
      t.errcode = if (s.inByte 0).toNat < 4 then 0x01#8 else 0x00#8)

/-- R96: which commands overwrite CRC with the CRC they compute, and that no other command but CRC_CLR and CRC_BYTE
changes it. -/
def Obligations.CrcIsOverwrittenOnlyAsListed : Prop :=
  ∀ (i : Instr) (s t : State), exec i s = .next t → i ≠ .crcClr → i ≠ .crcByte →
    t.crc = match i with
      | .crcBuf | .crcCmp => crc16 (s.inSlice 0 s.inLen.toNat)
      | .valTrailer => if 2 ≤ s.inLen.toNat then crc16 (s.inSlice 0 (s.inLen.toNat - 2)) else s.crc
      | .frameCmd =>
        if 1 ≤ s.inLen.toNat ∧ s.inLen.toNat ≤ 251 then
          crc16 (BitVec.ofNat 8 (s.inLen.toNat + 3) :: s.inSlice 0 s.inLen.toNat)
        else s.crc
      | .valResp => if 4 ≤ s.inLen.toNat then crc16 (s.inSlice 0 (s.inLen.toNat - 2)) else s.crc
      | .chkWake => if s.inLen.toNat = 4 then crc16 (s.inSlice 0 2) else s.crc
      | .crcClr | .crcByte | .hdrExtract => s.crc

/-- R97: VAL_TRAILER, VAL_RESP and CHK_WAKE overwrite CLAIM with the trailer they read, under R97's conditions, and no
other command changes it. -/
def Obligations.ClaimIsOverwrittenOnlyAsListed : Prop :=
  ∀ (i : Instr) (s t : State), exec i s = .next t →
    t.claim =
      if (i = .valTrailer ∧ 2 ≤ s.inLen.toNat) ∨ (i = .valResp ∧ 4 ≤ s.inLen.toNat) ∨
          (i = .chkWake ∧ s.inLen.toNat = 4) then
        leWord (s.inByte (s.inLen.toNat - 2)) (s.inByte (s.inLen.toNat - 1))
      else s.claim

/-! ## The host's accesses (20_memory.md) and the host-program notation (30_encoding.md) -/

/-- R33: a host read returns the "host read" column of R32 and changes no state of the block. -/
def Obligations.HostReadsFollowTheAddressMap : Prop :=
  ∀ (s : State) (a : Addr) (rest : List HostMove), s.pending = .read a :: rest →
    ∃ t, step s = .next t ∧ sameExcept [] s t ∧ t.pending = rest ∧
      t.observed = s.observed ++ [
        if a.toNat ≤ 0x0FF then s.inBuf.read a.toNat
        else if a.toNat ≤ 0x1FF then s.outBuf.read (a.toNat - 0x100)
        else if a = 0x200#10 then s.lastcmd
        else if a = 0x201#10 then s.status
        else if a = 0x202#10 then s.errcode
        else if a = 0x203#10 then s.inLen
        else if a = 0x204#10 then s.outLen
        else if a = 0x205#10 then s.prefixReg
        else if a = 0x206#10 then s.data
        else if a = 0x208#10 then BitVec.ofNat 8 (s.crc.toNat % 256)
        else if a = 0x209#10 then BitVec.ofNat 8 (s.crc.toNat / 256)
        else if a = 0x20A#10 then BitVec.ofNat 8 (s.claim.toNat % 256)
        else if a = 0x20B#10 then BitVec.ofNat 8 (s.claim.toNat / 256)
        else if a = 0x20C#10 then s.rxLen
        else if a = 0x20D#10 then s.remain
        else 0x00#8]

/-- R34: a host write does what the "host write" column of R32 says. The buffer is canonical before it, which every step
keeps (StepKeepsTheInvariant). -/
def Obligations.HostWritesFollowTheAddressMap : Prop :=
  ∀ (s : State) (a : Addr) (v : Byte) (rest : List HostMove), s.inBuf.wf = true → s.pending = .write a v :: rest →
    ∃ t, step s = .next t ∧ t.pending = rest ∧ t.observed = s.observed ∧
      if a.toNat ≤ 0x0FF then
        (∀ i : Nat, t.inBuf.read i = if i = a.toNat then v else s.inBuf.read i) ∧ sameExcept [.inBuf] s t
      else if a = 0x200#10 then
        t.lastcmd = v ∧ (∀ i, decode v = .ok i → exec i (s.setPending rest) = .next t) ∧
          ((∀ i, decode v ≠ .ok i) → completedWith t v 0x05#8 0x01#8 ∧ sameExcept completionWrites s t)
      else if a = 0x203#10 then t.inLen = v ∧ sameExcept [.inLen] s t
      else if a = 0x205#10 then t.prefixReg = v ∧ sameExcept [.prefixReg] s t
      else if a = 0x206#10 then t.data = v ∧ sameExcept [.data] s t
      else if a = 0x20A#10 then
        t.claim.toNat = 256 * (s.claim.toNat / 256) + v.toNat ∧ sameExcept [.claim] s t
      else if a = 0x20B#10 then
        t.claim.toNat = 256 * v.toNat + s.claim.toNat % 256 ∧ sameExcept [.claim] s t
      else sameExcept [] s t

/-- R38: a write to an address other than CMD leaves what every other address reads alone, and at a writable address the
value written is read back. -/
def Obligations.ReadsReturnTheMostRecentWrite : Prop :=
  ∀ (s : State) (a : Addr) (v : Byte) (rest : List HostMove), s.inBuf.wf = true → a ≠ 0x200#10 →
    s.pending = .write a v :: rest →
    ∃ t, step s = .next t ∧ (∀ b : Addr, b ≠ a → hostRead t b = hostRead s b) ∧
      hostRead t a =
        if a.toNat ≤ 0x0FF ∨ a = 0x203#10 ∨ a = 0x205#10 ∨ a = 0x206#10 ∨ a = 0x20A#10 ∨ a = 0x20B#10 then v
        else hostRead s a

/-- R35: every address but CMD is idempotent for writes: the same write twice leaves what it leaves once. -/
def Obligations.WritesAreIdempotentExceptAtCmd : Prop :=
  ∀ (s : State) (a : Addr) (v : Byte) (rest : List HostMove), s.inBuf.wf = true → a ≠ 0x200#10 →
    ∃ t, run 1 (s.setPending (.write a v :: rest)) = .next t ∧
      run 2 (s.setPending (.write a v :: .write a v :: rest)) = .next t

/-- R30: the host sees all of the block's state: two states with canonical buffers whose every address reads alike are
equal but for the host's own side. -/
def Obligations.NoStateIsHiddenFromTheHost : Prop :=
  ∀ s t : State, s.inBuf.wf = true → s.outBuf.wf = true → t.inBuf.wf = true → t.outBuf.wf = true →
    (∀ a : Addr, hostRead s a = hostRead t a) → t = { s with pending := t.pending, observed := t.observed }

/-- R32: each register name has an address of its own, and the addresses that name nothing are exactly the reserved rows:
0x207, 0x20E and up. -/
def Obligations.AddressMapHasNoOverlap : Prop :=
  (∀ r r' : HostReg, regAddr r = regAddr r' → r = r') ∧ (∀ r, placeOf (regAddr r) = .reg r) ∧
  ∀ a : Addr, placeOf a = .reserved ↔ a.toNat = 0x207 ∨ 0x20E ≤ a.toNat

/-- R58: the pseudo-instructions are exactly the accesses of R58's table. For a LOAD of 256 bytes or more and an RDOUT past
256, which are not well formed, R58 gives no bound and no meaning: that they expand by the same formulas, addresses and
number of bytes modulo the field's width, is the model's choice (DESIGN CHOICE, log entry 8). -/
def Obligations.PseudoInstructionsExpandAsListed : Prop :=
  (∀ i, expand (.command i) = [.write 0x200#10 (encode i)]) ∧
  (∀ bs : List Byte, expand (.load bs) =
    bs.mapIdx (fun k b => .write (BitVec.ofNat 10 k) b) ++ [.write 0x203#10 (BitVec.ofNat 8 bs.length)]) ∧
  (∀ c : Word, expand (.setClaim c) = [.write 0x20A#10 (lowByte c), .write 0x20B#10 (highByte c)]) ∧
  (∀ b : Byte, expand (.feed b) = [.write 0x206#10 b, .write 0x200#10 0x02#8]) ∧
  expand .rdCrc = [.read 0x208#10, .read 0x209#10] ∧
  ∀ k : Nat, expand (.rdOut k) = (List.range k).map (fun i => .read (BitVec.ofNat 10 (0x100 + i)))

/-- R58 with R34: LOAD of a well-formed length leaves its bytes in IN and their number in IN_LEN, and changes nothing else
of the block but IN and IN_LEN. -/
def Obligations.LoadPutsItsBytesInTheInput : Prop :=
  ∀ (s : State) (bs : List Byte) (rest : List HostMove), s.inBuf.wf = true → (Pseudo.load bs).wf = true →
    s.pending = expand (.load bs) ++ rest →
    ∃ t, run (bs.length + 1) s = .next t ∧ t.pending = rest ∧ t.observed = s.observed ∧ t.inBuf.wf = true ∧
      t.inLen.toNat = bs.length ∧ t.inSlice 0 bs.length = bs ∧
      (∀ i : Nat, bs.length ≤ i → t.inByte i = s.inByte i) ∧ sameExcept [.inBuf, .inLen] s t

/-- R58 with R24 and R37(e): SETCLAIM leaves its 16-bit value in CLAIM, and RDCRC reads CRC as its trailer bytes in wire
order. -/
def Obligations.SixteenBitRegistersTravelLowByteFirst : Prop :=
  (∀ (s : State) (c : Word) (rest : List HostMove), s.pending = expand (.setClaim c) ++ rest →
    ∃ t, run 2 s = .next t ∧ t.claim = c ∧ t.pending = rest ∧ t.observed = s.observed ∧ sameExcept [.claim] s t) ∧
  ∀ (s : State) (rest : List HostMove), s.pending = expand .rdCrc ++ rest →
    ∃ t, run 2 s = .next t ∧ t.observed = s.observed ++ leBytes s.crc ∧ t.pending = rest ∧ sameExcept [] s t

/-- R58 with R28: RDOUT k of a well-formed k returns the first k bytes of OUT and changes nothing of the block. -/
def Obligations.RdOutReturnsTheOutput : Prop :=
  ∀ (s : State) (k : Nat) (rest : List HostMove), (Pseudo.rdOut k).wf = true → s.pending = expand (.rdOut k) ++ rest →
    ∃ t, run k s = .next t ∧ t.observed = s.observed ++ s.outBuf.slice 0 k ∧ t.pending = rest ∧ sameExcept [] s t

/-- R56: the chip's read command, framed. -/
def Obligations.ChipReadCommandIsAnEightByteFrame : Prop :=
  ∀ (zone : Byte) (addr : Word), frame 0x03#8 (chipReadBody zone addr) =
    [0x03#8, 0x07#8, 0x02#8, zone, lowByte addr, highByte addr] ++
      leBytes (crc16 [0x07#8, 0x02#8, zone, lowByte addr, highByte addr])

/-! ## Reset, runs and invariants (70_reset_and_hazards.md, 20_memory.md, 10_state.md) -/

/-- R93: asserting reset sets every element to the table's value, from any state; the state after power-on is the same. -/
def Obligations.ResetSetsEveryElement : Prop :=
  ∀ (s : State) (rest : List HostMove), s.pending = .reset :: rest →
    ∃ t, step s = .next t ∧ t.pending = rest ∧ ∀ u ∈ [t, State.reset],
      u.lastcmd = 0x00#8 ∧ u.status = 0x00#8 ∧ u.errcode = 0x00#8 ∧ u.inLen = 0x00#8 ∧ u.outLen = 0x00#8 ∧
      u.prefixReg = 0x03#8 ∧ u.data = 0x00#8 ∧ u.crc = 0x0000#16 ∧ u.claim = 0x0000#16 ∧ u.rxLen = 0x00#8 ∧
      u.remain = 0x00#8 ∧ (∀ i : Nat, u.inBuf.read i = 0x00#8) ∧ ∀ i : Nat, u.outBuf.read i = 0x00#8

/-- With no host move waiting the block keeps all its state for any number of steps: 20_memory.md section 1 says "The block
never starts anything by itself", and that a step is then the identity is the model's choice (log entry 2). -/
def Obligations.IdleBlockKeepsItsState : Prop := ∀ (k : Nat) (s : State), s.pending = [] → run k s = .next s

/-- R39, R43, R44: every run of any length from any state completes; nothing the host does stops the block. For `k` beyond
the number of pending moves this rests on the model's choice that a step with no move waiting answers the same state
(DESIGN CHOICE, log entry 2). -/
def Obligations.EveryRunCompletes : Prop := ∀ (k : Nat) (s : State), ∃ t, run k s = .next t

/-- R44: a run of accesses takes one step each and observes one byte per read, after what was observed before. -/
def Obligations.RunsObserveOneBytePerRead : Prop :=
  ∀ (s : State) (ms rest : List HostMove), accessesOnly ms → s.pending = ms ++ rest →
    ∃ t, run ms.length s = .next t ∧ t.pending = rest ∧
      ∃ bs : List Byte, t.observed = s.observed ++ bs ∧ bs.length = readCount ms

/-- R29: the OUT invariant holds at reset and every step keeps it. -/
def Obligations.OutputTailStaysZero : Prop :=
  outTailZero State.reset ∧ ∀ s t : State, outTailZero s → step s = .next t → outTailZero t

/-- The block's invariant holds at reset. -/
def Obligations.InvariantHoldsAtReset : Prop := State.reset.Inv

/-- Every step keeps the block's invariant: canonical buffers, the reserved STATUS bits and ERR (R17), the range of
ERRCODE (R18, R82) and of REMAIN (R26), and the OUT invariant (R29). -/
def Obligations.StepKeepsTheInvariant : Prop := ∀ s t : State, s.Inv → step s = .next t → t.Inv
end

