-- ==== Sys2Proof/Laws/Crc.lean ====
section
/-! SUPPORT. The laws of 16-bit values as byte pairs, and of the CRC function. -/

namespace Sys2Proof.Machine

@[simp] theorem lowByte_leWord (lo hi : Byte) : lowByte (leWord lo hi) = lo := by
  apply BitVec.eq_of_getLsbD_eq
  intro i hi'
  simp [lowByte, leWord, zext16, hi', show i < 16 by omega]

@[simp] theorem highByte_leWord (lo hi : Byte) : highByte (leWord lo hi) = hi := by
  apply BitVec.eq_of_getLsbD_eq
  intro i hi'
  simp [highByte, leWord, zext16, hi', show 8 + i < 16 by omega]

@[simp] theorem leWord_bytes (c : Word) : leWord (lowByte c) (highByte c) = c := by
  apply BitVec.eq_of_getLsbD_eq
  intro i hi'
  by_cases h : i < 8
  · simp [lowByte, highByte, leWord, zext16, h, hi']
  · simp [lowByte, highByte, leWord, zext16, h, hi', show 8 + (i - 8) = i by omega, show i - 8 < 8 by omega]

/-- A 16-bit value is the number its two bytes spell, low byte first. -/
theorem toNat_leWord (lo hi : Byte) : (leWord lo hi).toNat = lo.toNat + 256 * hi.toNat := by
  have h1 : lo.toNat < 2 ^ 8 := lo.isLt
  have h2 := hi.isLt
  simp only [leWord, zext16, BitVec.toNat_or, BitVec.toNat_shiftLeft, BitVec.toNat_setWidth]
  rw [Nat.mod_eq_of_lt (show lo.toNat < 2 ^ 16 by omega), Nat.mod_eq_of_lt (show hi.toNat < 2 ^ 16 by omega),
    Nat.shiftLeft_eq, Nat.mod_eq_of_lt (by omega), Nat.or_comm, Nat.mul_comm hi.toNat, ← Nat.two_pow_add_eq_or_of_lt h1]
  omega

/-- Byte pairs are equal when the 16-bit values are. -/
theorem leWord_inj {a b a' b' : Byte} : leWord a b = leWord a' b' ↔ a = a' ∧ b = b' := by
  constructor
  · intro h
    exact ⟨by simpa using congrArg lowByte h, by simpa using congrArg highByte h⟩
  · rintro ⟨rfl, rfl⟩; rfl

/-- `crc16` over a concatenation continues from the first part's CRC. -/
theorem crc16_append (s u : List Byte) : crc16 (s ++ u) = u.foldl crcStep (crc16 s) := by
  simp [crc16, List.foldl_append]

/-- One bit through the register is linear in register and data together. -/
theorem crcBit_xor (c c' : Word) (d d' : Bool) : crcBit (c ^^^ c') (d ^^ d') = crcBit c d ^^^ crcBit c' d' := by
  unfold crcBit
  generalize hp : Config.poly = p
  simp only [BitVec.getLsbD_xor, BitVec.shiftLeft_xor_distrib]
  generalize c <<< 1 = x
  generalize c' <<< 1 = y
  apply BitVec.eq_of_getLsbD_eq
  intro i hi
  cases d <;> cases d' <;> cases c.getLsbD 15 <;> cases c'.getLsbD 15 <;> simp <;>
    cases x.getLsbD i <;> cases y.getLsbD i <;> cases p.getLsbD i <;> rfl

/-- Folding bits through the register is linear. -/
theorem foldl_crcBit_xor (ds ds' : List Bool) (h : ds.length = ds'.length) (c c' : Word) :
    (List.zipWith (· ^^ ·) ds ds').foldl crcBit (c ^^^ c') = ds.foldl crcBit c ^^^ ds'.foldl crcBit c' := by
  induction ds generalizing ds' c c' with
  | nil => cases ds' with
    | nil => rfl
    | cons => simp at h
  | cons d ds ih => cases ds' with
    | nil => simp at h
    | cons d' ds' =>
      simp only [List.zipWith_cons_cons, List.foldl_cons]
      rw [crcBit_xor]
      exact ih ds' (by simpa using h) _ _

/-- The data bits of an exclusive or. -/
theorem dataBits_xor (b b' : Byte) : dataBits (b ^^^ b') = List.zipWith (· ^^ ·) (dataBits b) (dataBits b') := by
  simp [dataBits]

/-- One byte through the register is linear in register and data together. -/
theorem crcStep_xor (c c' : Word) (b b' : Byte) : crcStep (c ^^^ c') (b ^^^ b') = crcStep c b ^^^ crcStep c' b' := by
  unfold crcStep
  rw [dataBits_xor]
  exact foldl_crcBit_xor _ _ (by simp [dataBits]) c c'

@[simp] theorem length_leBytes (c : Word) : (leBytes c).length = 2 := rfl

@[simp] theorem length_frame (p : Byte) (body : List Byte) : (frame p body).length = body.length + 4 := by
  simp [frame]

@[simp] theorem length_payload (packet : List Byte) : (payload packet).length = packet.length - 3 := by
  simp [payload]; omega

end Sys2Proof.Machine
end

