-- ==== Sys2Proof/Laws/Memory.lean ====
section
/-! SUPPORT. The laws of the buffers: read after write, the canonical form, and memories built from bytes. -/

namespace Sys2Proof.Machine

@[simp] theorem Memory.read_nil (a : Nat) : Memory.read [] a = unlistedByte := rfl

/-- Lowering the bound keeps the form. -/
theorem Memory.wfFrom_mono {lo lo' : Nat} (h : lo' ≤ lo) (m : Memory) (hm : Memory.wfFrom lo m = true) :
    Memory.wfFrom lo' m = true := by
  cases m with
  | nil => rfl
  | cons c m =>
    obtain ⟨k, v⟩ := c
    simp only [Memory.wfFrom, Bool.and_eq_true, decide_eq_true_eq] at hm ⊢
    exact ⟨⟨⟨by omega, hm.1.1.2⟩, hm.1.2⟩, hm.2⟩

/-- Below its first index a well-formed memory reads as unlisted. -/
theorem Memory.read_below {lo : Nat} (m : Memory) (hm : Memory.wfFrom lo m = true) (a : Nat) (ha : a < lo) :
    Memory.read m a = unlistedByte := by
  induction m generalizing lo with
  | nil => rfl
  | cons c m ih =>
    obtain ⟨k, v⟩ := c
    simp only [Memory.wfFrom, Bool.and_eq_true, decide_eq_true_eq] at hm
    rw [Memory.read, if_neg (by omega)]
    exact ih hm.2 (by omega)

/-- At or above the buffer's size a well-formed memory reads as unlisted. -/
theorem Memory.read_above {lo : Nat} (m : Memory) (hm : Memory.wfFrom lo m = true) (a : Nat)
    (ha : Config.bufSize ≤ a) : Memory.read m a = unlistedByte := by
  induction m generalizing lo with
  | nil => rfl
  | cons c m ih =>
    obtain ⟨k, v⟩ := c
    simp only [Memory.wfFrom, Bool.and_eq_true, decide_eq_true_eq] at hm
    rw [Memory.read, if_neg (by omega)]
    exact ih hm.2

/-- Reading a memory with one cell put in front. -/
theorem Memory.read_cons {m : Memory} {a : Nat} (hm : Memory.wfFrom (a + 1) m = true) (v : Byte) (b : Nat) :
    Memory.read (Memory.cons a v m) b = if b = a then v else Memory.read m b := by
  unfold Memory.cons
  split
  · next hv =>
    subst hv
    split
    · next h => rw [h, Memory.read_below m hm a (by omega)]
    · rfl
  · simp [Memory.read, eq_comm]

/-- Putting a cell in front keeps the form. -/
theorem Memory.wfFrom_cons {m : Memory} {lo a : Nat} (hlo : lo ≤ a) (ha : a < Config.bufSize) (v : Byte)
    (hm : Memory.wfFrom (a + 1) m = true) : Memory.wfFrom lo (Memory.cons a v m) = true := by
  unfold Memory.cons
  split
  · exact Memory.wfFrom_mono (by omega) m hm
  · next hv => simp [Memory.wfFrom, hlo, ha, hm, hv]

/-- What a write does to every read. -/
theorem Memory.read_write_from {lo : Nat} (m : Memory) (hm : Memory.wfFrom lo m = true) (a : Nat) (v : Byte) (b : Nat) :
    Memory.read (Memory.write m a v) b = if b = a then v else Memory.read m b := by
  induction m generalizing lo with
  | nil => exact Memory.read_cons (by rfl) v b
  | cons c m ih =>
    obtain ⟨k, w⟩ := c
    have hc := hm
    simp only [Memory.wfFrom, Bool.and_eq_true, decide_eq_true_eq] at hm
    unfold Memory.write
    split
    · next h =>
      refine Memory.read_cons ?_ v b
      simp only [Memory.wfFrom, Bool.and_eq_true, decide_eq_true_eq]
      exact ⟨⟨⟨by omega, hm.1.1.2⟩, hm.1.2⟩, hm.2⟩
    · split
      · next h =>
        subst h
        rw [Memory.read_cons hm.2]
        split
        · rfl
        · next hb => rw [Memory.read, if_neg (by omega)]
      · next h1 h2 =>
        rw [Memory.read, ih hm.2, Memory.read]
        by_cases hkb : k = b
        · simp [hkb]; omega
        · simp [hkb]

/-- In any memory, canonical or not, a write leaves every other index alone. -/
theorem Memory.read_write_ne (m : Memory) {a b : Nat} (hb : b ≠ a) (v : Byte) :
    Memory.read (Memory.write m a v) b = Memory.read m b := by
  have hcons : ∀ m' : Memory, Memory.read (Memory.cons a v m') b = Memory.read m' b := by
    intro m'
    unfold Memory.cons
    split
    · rfl
    · rw [Memory.read, if_neg (Ne.symm hb)]
  induction m with
  | nil => exact hcons []
  | cons c m ih =>
    obtain ⟨k, w⟩ := c
    unfold Memory.write
    split
    · exact hcons _
    · split
      · next h => subst h; rw [hcons, Memory.read, if_neg (Ne.symm hb)]
      · rw [Memory.read, Memory.read, ih]

/-- A write inside the buffer keeps the form. -/
theorem Memory.wfFrom_write {lo : Nat} (m : Memory) (hm : Memory.wfFrom lo m = true) (a : Nat) (v : Byte) (hlo : lo ≤ a)
    (ha : a < Config.bufSize) : Memory.wfFrom lo (Memory.write m a v) = true := by
  induction m generalizing lo with
  | nil => exact Memory.wfFrom_cons hlo ha v rfl
  | cons c m ih =>
    obtain ⟨k, w⟩ := c
    simp only [Memory.wfFrom, Bool.and_eq_true, decide_eq_true_eq] at hm
    unfold Memory.write
    split
    · next h =>
      refine Memory.wfFrom_cons hlo ha v ?_
      simp only [Memory.wfFrom, Bool.and_eq_true, decide_eq_true_eq]
      exact ⟨⟨⟨by omega, hm.1.1.2⟩, hm.1.2⟩, hm.2⟩
    · split
      · next h => subst h; exact Memory.wfFrom_cons hlo ha v hm.2
      · next h1 h2 =>
        simp only [Memory.wfFrom, Bool.and_eq_true, decide_eq_true_eq]
        exact ⟨⟨⟨hm.1.1.1, hm.1.1.2⟩, hm.1.2⟩, ih hm.2 (by omega)⟩

/-- Read after write in a canonical memory. -/
theorem Memory.read_write {m : Memory} (hm : m.wf = true) (a : Nat) (v : Byte) (b : Nat) :
    (m.write a v).read b = if b = a then v else m.read b := Memory.read_write_from m hm a v b

/-- A write inside the buffer keeps the canonical form. -/
theorem Memory.wf_write {m : Memory} (hm : m.wf = true) {a : Nat} (ha : a < Config.bufSize) (v : Byte) :
    (m.write a v).wf = true := Memory.wfFrom_write m hm a v (Nat.zero_le a) ha

/-- A memory built from bytes that fit is canonical. -/
theorem Memory.wfFrom_ofBytesFrom (bs : List Byte) (a : Nat) (h : a + bs.length ≤ Config.bufSize) :
    Memory.wfFrom a (Memory.ofBytesFrom a bs) = true := by
  induction bs generalizing a with
  | nil => rfl
  | cons b bs ih =>
    simp only [List.length_cons] at h
    exact Memory.wfFrom_cons (Nat.le_refl a) (by omega) b (ih (a + 1) (by omega))

/-- A memory built from bytes holds them, and 0x00 elsewhere. -/
theorem Memory.read_ofBytesFrom (bs : List Byte) (a : Nat) (h : a + bs.length ≤ Config.bufSize) (i : Nat) :
    Memory.read (Memory.ofBytesFrom a bs) (a + i) = bs.getD i 0x00#8 := by
  induction bs generalizing a i with
  | nil => rfl
  | cons b bs ih =>
    simp only [List.length_cons] at h
    rw [Memory.ofBytesFrom, Memory.read_cons (Memory.wfFrom_ofBytesFrom bs (a + 1) (by omega))]
    cases i with
    | zero => simp
    | succ i =>
      rw [if_neg (by omega), show a + (i + 1) = a + 1 + i by omega, ih (a + 1) (by omega)]
      simp

/-- OUT after `setOut`: canonical when the bytes fit. -/
theorem Memory.wf_ofBytes (bs : List Byte) (h : bs.length ≤ Config.bufSize) :
    Memory.wf (Memory.ofBytesFrom 0 bs) = true := Memory.wfFrom_ofBytesFrom bs 0 (by omega)

/-- OUT after `setOut`: the bytes, then 0x00. -/
theorem Memory.read_ofBytes (bs : List Byte) (h : bs.length ≤ Config.bufSize) (i : Nat) :
    Memory.read (Memory.ofBytesFrom 0 bs) i = bs.getD i 0x00#8 := by
  simpa using Memory.read_ofBytesFrom bs 0 (by omega) i

/-- Canonical memories that read alike are equal. -/
theorem Memory.ext_from {lo : Nat} (m m' : Memory) (hm : Memory.wfFrom lo m = true) (hm' : Memory.wfFrom lo m' = true)
    (h : ∀ a : Nat, Memory.read m a = Memory.read m' a) : m = m' := by
  induction m generalizing m' lo with
  | nil =>
    cases m' with
    | nil => rfl
    | cons c m' =>
      obtain ⟨k, v⟩ := c
      simp only [Memory.wfFrom, Bool.and_eq_true, decide_eq_true_eq, bne_iff_ne] at hm'
      exact absurd (by simpa [Memory.read] using (h k).symm) hm'.1.2
  | cons c m ih =>
    obtain ⟨k, v⟩ := c
    cases m' with
    | nil =>
      simp only [Memory.wfFrom, Bool.and_eq_true, decide_eq_true_eq, bne_iff_ne] at hm
      exact absurd (by simpa [Memory.read] using h k) hm.1.2
    | cons c' m' =>
      obtain ⟨k', v'⟩ := c'
      simp only [Memory.wfFrom, Bool.and_eq_true, decide_eq_true_eq, bne_iff_ne] at hm hm'
      have hk : k = k' := by
        rcases Nat.lt_trichotomy k k' with hlt | heq | hgt
        · have := h k
          rw [Memory.read, if_pos rfl, Memory.read, if_neg (by omega),
            Memory.read_below m' hm'.2 k (by omega)] at this
          exact absurd this hm.1.2
        · exact heq
        · have := h k'
          rw [Memory.read, if_neg (by omega), Memory.read_below m hm.2 k' (by omega), Memory.read, if_pos rfl] at this
          exact absurd this.symm hm'.1.2
      subst hk
      have hv : v = v' := by simpa [Memory.read] using h k
      subst hv
      rw [ih m' hm.2 hm'.2]
      intro a
      by_cases ha : k = a
      · subst ha; rw [Memory.read_below m hm.2 k (by omega), Memory.read_below m' hm'.2 k (by omega)]
      · have := h a
        rwa [Memory.read, if_neg ha, Memory.read, if_neg ha] at this

/-- Canonical memories that read alike are equal. -/
theorem Memory.ext {m m' : Memory} (hm : m.wf = true) (hm' : m'.wf = true) (h : ∀ a : Nat, m.read a = m'.read a) :
    m = m' := Memory.ext_from m m' hm hm' h

/-- Writing twice is writing once. -/
theorem Memory.write_write_same {m : Memory} (hm : m.wf = true) {a : Nat} (ha : a < Config.bufSize) (v : Byte) :
    (m.write a v).write a v = m.write a v := by
  have hw := Memory.wf_write hm ha v
  refine Memory.ext (Memory.wf_write hw ha v) hw fun b => ?_
  rw [Memory.read_write hw, Memory.read_write hm]
  split <;> simp_all

@[simp] theorem Memory.length_slice (m : Memory) (i j : Nat) : (m.slice i j).length = j - i := by
  simp [Memory.slice]

/-- A byte of a slice. -/
theorem Memory.getElem_slice (m : Memory) (i j k : Nat) (h : k < (m.slice i j).length) :
    (m.slice i j)[k] = m.read (i + k) := by
  simp [Memory.slice]

/-- Slices of memories that read alike there are equal. -/
theorem Memory.slice_congr {m m' : Memory} {i j : Nat} (h : ∀ a : Nat, i ≤ a → a < j → m.read a = m'.read a) :
    m.slice i j = m'.slice i j := by
  refine List.ext_getElem (by simp) fun k hk hk' => ?_
  rw [Memory.getElem_slice, Memory.getElem_slice]
  simp only [Memory.length_slice] at hk
  exact h _ (by omega) (by omega)

end Sys2Proof.Machine
end

