-- ==== Sys2Proof/Laws/State.lean ====
section
/-! SUPPORT. One lemma per field per update of State, so that no later proof unfolds a record update; and the fields of
`State.reset` (R93). -/

namespace Sys2Proof.Machine

/-- `clearOut` is `setOut` of no bytes. -/
@[simp] theorem State.clearOut_eq (s : State) : s.clearOut = s.setOut [] := rfl

/-- `succeed` is the common completion with NONE. -/
@[simp] theorem State.succeed_eq (s : State) (v : Byte) (m l : Bool) :
    s.succeed v m l = s.endCommand v .none m l := rfl

/-- `raiseError` is the common completion with the error. -/
@[simp] theorem State.raiseError_eq (s : State) (v : Byte) (e : ErrorCode) (m l : Bool) :
    s.raiseError v e m l = s.endCommand v e m l := rfl

/-- A write of CLAIM's low byte is a write of CLAIM. -/
@[simp] theorem State.setClaimLow_eq (s : State) (v : Byte) :
    s.setClaimLow v = s.setClaim (leWord v (highByte s.claim)) := rfl

/-- A write of CLAIM's high byte is a write of CLAIM. -/
@[simp] theorem State.setClaimHigh_eq (s : State) (v : Byte) :
    s.setClaimHigh v = s.setClaim (leWord (lowByte s.claim) v) := rfl

section setCrc

variable (s : State) (c : Word)

@[simp] theorem State.setCrc_lastcmd : (s.setCrc c).lastcmd = s.lastcmd := rfl
@[simp] theorem State.setCrc_status : (s.setCrc c).status = s.status := rfl
@[simp] theorem State.setCrc_errcode : (s.setCrc c).errcode = s.errcode := rfl
@[simp] theorem State.setCrc_inLen : (s.setCrc c).inLen = s.inLen := rfl
@[simp] theorem State.setCrc_outLen : (s.setCrc c).outLen = s.outLen := rfl
@[simp] theorem State.setCrc_prefixReg : (s.setCrc c).prefixReg = s.prefixReg := rfl
@[simp] theorem State.setCrc_data : (s.setCrc c).data = s.data := rfl
@[simp] theorem State.setCrc_crc : (s.setCrc c).crc = c := rfl
@[simp] theorem State.setCrc_claim : (s.setCrc c).claim = s.claim := rfl
@[simp] theorem State.setCrc_rxLen : (s.setCrc c).rxLen = s.rxLen := rfl
@[simp] theorem State.setCrc_remain : (s.setCrc c).remain = s.remain := rfl
@[simp] theorem State.setCrc_inBuf : (s.setCrc c).inBuf = s.inBuf := rfl
@[simp] theorem State.setCrc_outBuf : (s.setCrc c).outBuf = s.outBuf := rfl
@[simp] theorem State.setCrc_pending : (s.setCrc c).pending = s.pending := rfl
@[simp] theorem State.setCrc_observed : (s.setCrc c).observed = s.observed := rfl

end setCrc

section setClaim

variable (s : State) (k : Word)

@[simp] theorem State.setClaim_lastcmd : (s.setClaim k).lastcmd = s.lastcmd := rfl
@[simp] theorem State.setClaim_status : (s.setClaim k).status = s.status := rfl
@[simp] theorem State.setClaim_errcode : (s.setClaim k).errcode = s.errcode := rfl
@[simp] theorem State.setClaim_inLen : (s.setClaim k).inLen = s.inLen := rfl
@[simp] theorem State.setClaim_outLen : (s.setClaim k).outLen = s.outLen := rfl
@[simp] theorem State.setClaim_prefixReg : (s.setClaim k).prefixReg = s.prefixReg := rfl
@[simp] theorem State.setClaim_data : (s.setClaim k).data = s.data := rfl
@[simp] theorem State.setClaim_crc : (s.setClaim k).crc = s.crc := rfl
@[simp] theorem State.setClaim_claim : (s.setClaim k).claim = k := rfl
@[simp] theorem State.setClaim_rxLen : (s.setClaim k).rxLen = s.rxLen := rfl
@[simp] theorem State.setClaim_remain : (s.setClaim k).remain = s.remain := rfl
@[simp] theorem State.setClaim_inBuf : (s.setClaim k).inBuf = s.inBuf := rfl
@[simp] theorem State.setClaim_outBuf : (s.setClaim k).outBuf = s.outBuf := rfl
@[simp] theorem State.setClaim_pending : (s.setClaim k).pending = s.pending := rfl
@[simp] theorem State.setClaim_observed : (s.setClaim k).observed = s.observed := rfl

end setClaim

section setRxLen

variable (s : State) (d : Byte)

@[simp] theorem State.setRxLen_lastcmd : (s.setRxLen d).lastcmd = s.lastcmd := rfl
@[simp] theorem State.setRxLen_status : (s.setRxLen d).status = s.status := rfl
@[simp] theorem State.setRxLen_errcode : (s.setRxLen d).errcode = s.errcode := rfl
@[simp] theorem State.setRxLen_inLen : (s.setRxLen d).inLen = s.inLen := rfl
@[simp] theorem State.setRxLen_outLen : (s.setRxLen d).outLen = s.outLen := rfl
@[simp] theorem State.setRxLen_prefixReg : (s.setRxLen d).prefixReg = s.prefixReg := rfl
@[simp] theorem State.setRxLen_data : (s.setRxLen d).data = s.data := rfl
@[simp] theorem State.setRxLen_crc : (s.setRxLen d).crc = s.crc := rfl
@[simp] theorem State.setRxLen_claim : (s.setRxLen d).claim = s.claim := rfl
@[simp] theorem State.setRxLen_rxLen : (s.setRxLen d).rxLen = d := rfl
@[simp] theorem State.setRxLen_remain : (s.setRxLen d).remain = s.remain := rfl
@[simp] theorem State.setRxLen_inBuf : (s.setRxLen d).inBuf = s.inBuf := rfl
@[simp] theorem State.setRxLen_outBuf : (s.setRxLen d).outBuf = s.outBuf := rfl
@[simp] theorem State.setRxLen_pending : (s.setRxLen d).pending = s.pending := rfl
@[simp] theorem State.setRxLen_observed : (s.setRxLen d).observed = s.observed := rfl

end setRxLen

section setRemain

variable (s : State) (r : Byte)

@[simp] theorem State.setRemain_lastcmd : (s.setRemain r).lastcmd = s.lastcmd := rfl
@[simp] theorem State.setRemain_status : (s.setRemain r).status = s.status := rfl
@[simp] theorem State.setRemain_errcode : (s.setRemain r).errcode = s.errcode := rfl
@[simp] theorem State.setRemain_inLen : (s.setRemain r).inLen = s.inLen := rfl
@[simp] theorem State.setRemain_outLen : (s.setRemain r).outLen = s.outLen := rfl
@[simp] theorem State.setRemain_prefixReg : (s.setRemain r).prefixReg = s.prefixReg := rfl
@[simp] theorem State.setRemain_data : (s.setRemain r).data = s.data := rfl
@[simp] theorem State.setRemain_crc : (s.setRemain r).crc = s.crc := rfl
@[simp] theorem State.setRemain_claim : (s.setRemain r).claim = s.claim := rfl
@[simp] theorem State.setRemain_rxLen : (s.setRemain r).rxLen = s.rxLen := rfl
@[simp] theorem State.setRemain_remain : (s.setRemain r).remain = r := rfl
@[simp] theorem State.setRemain_inBuf : (s.setRemain r).inBuf = s.inBuf := rfl
@[simp] theorem State.setRemain_outBuf : (s.setRemain r).outBuf = s.outBuf := rfl
@[simp] theorem State.setRemain_pending : (s.setRemain r).pending = s.pending := rfl
@[simp] theorem State.setRemain_observed : (s.setRemain r).observed = s.observed := rfl

end setRemain

section setOut

variable (s : State) (bs : List Byte)

@[simp] theorem State.setOut_lastcmd : (s.setOut bs).lastcmd = s.lastcmd := rfl
@[simp] theorem State.setOut_status : (s.setOut bs).status = s.status := rfl
@[simp] theorem State.setOut_errcode : (s.setOut bs).errcode = s.errcode := rfl
@[simp] theorem State.setOut_inLen : (s.setOut bs).inLen = s.inLen := rfl
@[simp] theorem State.setOut_outLen : (s.setOut bs).outLen = BitVec.ofNat 8 bs.length := rfl
@[simp] theorem State.setOut_prefixReg : (s.setOut bs).prefixReg = s.prefixReg := rfl
@[simp] theorem State.setOut_data : (s.setOut bs).data = s.data := rfl
@[simp] theorem State.setOut_crc : (s.setOut bs).crc = s.crc := rfl
@[simp] theorem State.setOut_claim : (s.setOut bs).claim = s.claim := rfl
@[simp] theorem State.setOut_rxLen : (s.setOut bs).rxLen = s.rxLen := rfl
@[simp] theorem State.setOut_remain : (s.setOut bs).remain = s.remain := rfl
@[simp] theorem State.setOut_inBuf : (s.setOut bs).inBuf = s.inBuf := rfl
@[simp] theorem State.setOut_outBuf : (s.setOut bs).outBuf = Memory.ofBytesFrom 0 bs := rfl
@[simp] theorem State.setOut_pending : (s.setOut bs).pending = s.pending := rfl
@[simp] theorem State.setOut_observed : (s.setOut bs).observed = s.observed := rfl

end setOut

section setInByte

variable (s : State) (i : Nat) (v : Byte)

@[simp] theorem State.setInByte_lastcmd : (s.setInByte i v).lastcmd = s.lastcmd := rfl
@[simp] theorem State.setInByte_status : (s.setInByte i v).status = s.status := rfl
@[simp] theorem State.setInByte_errcode : (s.setInByte i v).errcode = s.errcode := rfl
@[simp] theorem State.setInByte_inLen : (s.setInByte i v).inLen = s.inLen := rfl
@[simp] theorem State.setInByte_outLen : (s.setInByte i v).outLen = s.outLen := rfl
@[simp] theorem State.setInByte_prefixReg : (s.setInByte i v).prefixReg = s.prefixReg := rfl
@[simp] theorem State.setInByte_data : (s.setInByte i v).data = s.data := rfl
@[simp] theorem State.setInByte_crc : (s.setInByte i v).crc = s.crc := rfl
@[simp] theorem State.setInByte_claim : (s.setInByte i v).claim = s.claim := rfl
@[simp] theorem State.setInByte_rxLen : (s.setInByte i v).rxLen = s.rxLen := rfl
@[simp] theorem State.setInByte_remain : (s.setInByte i v).remain = s.remain := rfl
@[simp] theorem State.setInByte_inBuf : (s.setInByte i v).inBuf = s.inBuf.write i v := rfl
@[simp] theorem State.setInByte_outBuf : (s.setInByte i v).outBuf = s.outBuf := rfl
@[simp] theorem State.setInByte_pending : (s.setInByte i v).pending = s.pending := rfl
@[simp] theorem State.setInByte_observed : (s.setInByte i v).observed = s.observed := rfl

end setInByte

section setInLen

variable (s : State) (v : Byte)

@[simp] theorem State.setInLen_lastcmd : (s.setInLen v).lastcmd = s.lastcmd := rfl
@[simp] theorem State.setInLen_status : (s.setInLen v).status = s.status := rfl
@[simp] theorem State.setInLen_errcode : (s.setInLen v).errcode = s.errcode := rfl
@[simp] theorem State.setInLen_inLen : (s.setInLen v).inLen = v := rfl
@[simp] theorem State.setInLen_outLen : (s.setInLen v).outLen = s.outLen := rfl
@[simp] theorem State.setInLen_prefixReg : (s.setInLen v).prefixReg = s.prefixReg := rfl
@[simp] theorem State.setInLen_data : (s.setInLen v).data = s.data := rfl
@[simp] theorem State.setInLen_crc : (s.setInLen v).crc = s.crc := rfl
@[simp] theorem State.setInLen_claim : (s.setInLen v).claim = s.claim := rfl
@[simp] theorem State.setInLen_rxLen : (s.setInLen v).rxLen = s.rxLen := rfl
@[simp] theorem State.setInLen_remain : (s.setInLen v).remain = s.remain := rfl
@[simp] theorem State.setInLen_inBuf : (s.setInLen v).inBuf = s.inBuf := rfl
@[simp] theorem State.setInLen_outBuf : (s.setInLen v).outBuf = s.outBuf := rfl
@[simp] theorem State.setInLen_pending : (s.setInLen v).pending = s.pending := rfl
@[simp] theorem State.setInLen_observed : (s.setInLen v).observed = s.observed := rfl

end setInLen

section setPrefixReg

variable (s : State) (v : Byte)

@[simp] theorem State.setPrefixReg_lastcmd : (s.setPrefixReg v).lastcmd = s.lastcmd := rfl
@[simp] theorem State.setPrefixReg_status : (s.setPrefixReg v).status = s.status := rfl
@[simp] theorem State.setPrefixReg_errcode : (s.setPrefixReg v).errcode = s.errcode := rfl
@[simp] theorem State.setPrefixReg_inLen : (s.setPrefixReg v).inLen = s.inLen := rfl
@[simp] theorem State.setPrefixReg_outLen : (s.setPrefixReg v).outLen = s.outLen := rfl
@[simp] theorem State.setPrefixReg_prefixReg : (s.setPrefixReg v).prefixReg = v := rfl
@[simp] theorem State.setPrefixReg_data : (s.setPrefixReg v).data = s.data := rfl
@[simp] theorem State.setPrefixReg_crc : (s.setPrefixReg v).crc = s.crc := rfl
@[simp] theorem State.setPrefixReg_claim : (s.setPrefixReg v).claim = s.claim := rfl
@[simp] theorem State.setPrefixReg_rxLen : (s.setPrefixReg v).rxLen = s.rxLen := rfl
@[simp] theorem State.setPrefixReg_remain : (s.setPrefixReg v).remain = s.remain := rfl
@[simp] theorem State.setPrefixReg_inBuf : (s.setPrefixReg v).inBuf = s.inBuf := rfl
@[simp] theorem State.setPrefixReg_outBuf : (s.setPrefixReg v).outBuf = s.outBuf := rfl
@[simp] theorem State.setPrefixReg_pending : (s.setPrefixReg v).pending = s.pending := rfl
@[simp] theorem State.setPrefixReg_observed : (s.setPrefixReg v).observed = s.observed := rfl

end setPrefixReg

section setData

variable (s : State) (v : Byte)

@[simp] theorem State.setData_lastcmd : (s.setData v).lastcmd = s.lastcmd := rfl
@[simp] theorem State.setData_status : (s.setData v).status = s.status := rfl
@[simp] theorem State.setData_errcode : (s.setData v).errcode = s.errcode := rfl
@[simp] theorem State.setData_inLen : (s.setData v).inLen = s.inLen := rfl
@[simp] theorem State.setData_outLen : (s.setData v).outLen = s.outLen := rfl
@[simp] theorem State.setData_prefixReg : (s.setData v).prefixReg = s.prefixReg := rfl
@[simp] theorem State.setData_data : (s.setData v).data = v := rfl
@[simp] theorem State.setData_crc : (s.setData v).crc = s.crc := rfl
@[simp] theorem State.setData_claim : (s.setData v).claim = s.claim := rfl
@[simp] theorem State.setData_rxLen : (s.setData v).rxLen = s.rxLen := rfl
@[simp] theorem State.setData_remain : (s.setData v).remain = s.remain := rfl
@[simp] theorem State.setData_inBuf : (s.setData v).inBuf = s.inBuf := rfl
@[simp] theorem State.setData_outBuf : (s.setData v).outBuf = s.outBuf := rfl
@[simp] theorem State.setData_pending : (s.setData v).pending = s.pending := rfl
@[simp] theorem State.setData_observed : (s.setData v).observed = s.observed := rfl

end setData

section setPending

variable (s : State) (ms : List HostMove)

@[simp] theorem State.setPending_lastcmd : (s.setPending ms).lastcmd = s.lastcmd := rfl
@[simp] theorem State.setPending_status : (s.setPending ms).status = s.status := rfl
@[simp] theorem State.setPending_errcode : (s.setPending ms).errcode = s.errcode := rfl
@[simp] theorem State.setPending_inLen : (s.setPending ms).inLen = s.inLen := rfl
@[simp] theorem State.setPending_outLen : (s.setPending ms).outLen = s.outLen := rfl
@[simp] theorem State.setPending_prefixReg : (s.setPending ms).prefixReg = s.prefixReg := rfl
@[simp] theorem State.setPending_data : (s.setPending ms).data = s.data := rfl
@[simp] theorem State.setPending_crc : (s.setPending ms).crc = s.crc := rfl
@[simp] theorem State.setPending_claim : (s.setPending ms).claim = s.claim := rfl
@[simp] theorem State.setPending_rxLen : (s.setPending ms).rxLen = s.rxLen := rfl
@[simp] theorem State.setPending_remain : (s.setPending ms).remain = s.remain := rfl
@[simp] theorem State.setPending_inBuf : (s.setPending ms).inBuf = s.inBuf := rfl
@[simp] theorem State.setPending_outBuf : (s.setPending ms).outBuf = s.outBuf := rfl
@[simp] theorem State.setPending_pending : (s.setPending ms).pending = ms := rfl
@[simp] theorem State.setPending_observed : (s.setPending ms).observed = s.observed := rfl

end setPending

section observe

variable (s : State) (b : Byte)

@[simp] theorem State.observe_lastcmd : (s.observe b).lastcmd = s.lastcmd := rfl
@[simp] theorem State.observe_status : (s.observe b).status = s.status := rfl
@[simp] theorem State.observe_errcode : (s.observe b).errcode = s.errcode := rfl
@[simp] theorem State.observe_inLen : (s.observe b).inLen = s.inLen := rfl
@[simp] theorem State.observe_outLen : (s.observe b).outLen = s.outLen := rfl
@[simp] theorem State.observe_prefixReg : (s.observe b).prefixReg = s.prefixReg := rfl
@[simp] theorem State.observe_data : (s.observe b).data = s.data := rfl
@[simp] theorem State.observe_crc : (s.observe b).crc = s.crc := rfl
@[simp] theorem State.observe_claim : (s.observe b).claim = s.claim := rfl
@[simp] theorem State.observe_rxLen : (s.observe b).rxLen = s.rxLen := rfl
@[simp] theorem State.observe_remain : (s.observe b).remain = s.remain := rfl
@[simp] theorem State.observe_inBuf : (s.observe b).inBuf = s.inBuf := rfl
@[simp] theorem State.observe_outBuf : (s.observe b).outBuf = s.outBuf := rfl
@[simp] theorem State.observe_pending : (s.observe b).pending = s.pending := rfl
@[simp] theorem State.observe_observed : (s.observe b).observed = s.observed ++ [b] := rfl

end observe

section endCommand

variable (s : State) (v : Byte) (e : ErrorCode) (m l : Bool)

@[simp] theorem State.endCommand_lastcmd : (s.endCommand v e m l).lastcmd = v := rfl
@[simp] theorem State.endCommand_status : (s.endCommand v e m l).status = statusByte e m l := rfl
@[simp] theorem State.endCommand_errcode : (s.endCommand v e m l).errcode = e.code := rfl
@[simp] theorem State.endCommand_inLen : (s.endCommand v e m l).inLen = s.inLen := rfl
@[simp] theorem State.endCommand_outLen : (s.endCommand v e m l).outLen = s.outLen := rfl
@[simp] theorem State.endCommand_prefixReg : (s.endCommand v e m l).prefixReg = s.prefixReg := rfl
@[simp] theorem State.endCommand_data : (s.endCommand v e m l).data = s.data := rfl
@[simp] theorem State.endCommand_crc : (s.endCommand v e m l).crc = s.crc := rfl
@[simp] theorem State.endCommand_claim : (s.endCommand v e m l).claim = s.claim := rfl
@[simp] theorem State.endCommand_rxLen : (s.endCommand v e m l).rxLen = s.rxLen := rfl
@[simp] theorem State.endCommand_remain : (s.endCommand v e m l).remain = s.remain := rfl
@[simp] theorem State.endCommand_inBuf : (s.endCommand v e m l).inBuf = s.inBuf := rfl
@[simp] theorem State.endCommand_outBuf : (s.endCommand v e m l).outBuf = s.outBuf := rfl
@[simp] theorem State.endCommand_pending : (s.endCommand v e m l).pending = s.pending := rfl
@[simp] theorem State.endCommand_observed : (s.endCommand v e m l).observed = s.observed := rfl

end endCommand

section reset

@[simp] theorem State.reset_lastcmd : State.reset.lastcmd = 0x00#8 := rfl
@[simp] theorem State.reset_status : State.reset.status = 0x00#8 := rfl
@[simp] theorem State.reset_errcode : State.reset.errcode = 0x00#8 := rfl
@[simp] theorem State.reset_inLen : State.reset.inLen = 0x00#8 := rfl
@[simp] theorem State.reset_outLen : State.reset.outLen = 0x00#8 := rfl
@[simp] theorem State.reset_prefixReg : State.reset.prefixReg = 0x03#8 := rfl
@[simp] theorem State.reset_data : State.reset.data = 0x00#8 := rfl
@[simp] theorem State.reset_crc : State.reset.crc = 0x0000#16 := rfl
@[simp] theorem State.reset_claim : State.reset.claim = 0x0000#16 := rfl
@[simp] theorem State.reset_rxLen : State.reset.rxLen = 0x00#8 := rfl
@[simp] theorem State.reset_remain : State.reset.remain = 0x00#8 := rfl
@[simp] theorem State.reset_inBuf : State.reset.inBuf = [] := rfl
@[simp] theorem State.reset_outBuf : State.reset.outBuf = [] := rfl
@[simp] theorem State.reset_pending : State.reset.pending = [] := rfl
@[simp] theorem State.reset_observed : State.reset.observed = [] := rfl

end reset

end Sys2Proof.Machine
end

