-- ==== Sys2Proof/Laws/Commands.lean ====
section
/-! SUPPORT. What each command can do, said once: one lemma per command and branch, which later proofs cite. -/

namespace Sys2Proof.Machine

variable (s : State)

theorem exec_crcClr : exec .crcClr s = .next ((s.setCrc 0#16).endCommand 0x01#8 .none false false) := rfl

theorem exec_crcByte :
    exec .crcByte s = .next ((s.setCrc (crcStep s.crc s.data)).endCommand 0x02#8 .none false false) := rfl

theorem exec_crcBuf :
    exec .crcBuf s = .next ((s.setCrc (crc16 (s.inSlice 0 s.inCount))).endCommand 0x03#8 .none false false) := rfl

theorem exec_crcCmp :
    exec .crcCmp s = .next ((s.setCrc (crc16 (s.inSlice 0 s.inCount))).endCommand 0x04#8 .none
      (crc16 (s.inSlice 0 s.inCount) == s.claim) false) := rfl

/-- The CRC a packet command computes over the bytes before the trailer of an n-byte packet. -/
def packetCrc (s : State) (n : Nat) : Word := crc16 (s.inSlice 0 (n - 2))

/-- CRC and CLAIM as a packet command leaves them for an n-byte packet. -/
def withCrcs (s : State) (n : Nat) : State := (s.setCrc (packetCrc s n)).setClaim (s.trailer n)

/-- As `withCrcs`, with the length field extracted. -/
def extracted (s : State) (n : Nat) : State := (withCrcs s n).setRxLen (s.inByte 0)

section packetState

variable (s : State) (n : Nat)

@[simp] theorem withCrcs_lastcmd : (withCrcs s n).lastcmd = s.lastcmd := rfl
@[simp] theorem withCrcs_status : (withCrcs s n).status = s.status := rfl
@[simp] theorem withCrcs_errcode : (withCrcs s n).errcode = s.errcode := rfl
@[simp] theorem withCrcs_inLen : (withCrcs s n).inLen = s.inLen := rfl
@[simp] theorem withCrcs_outLen : (withCrcs s n).outLen = s.outLen := rfl
@[simp] theorem withCrcs_prefixReg : (withCrcs s n).prefixReg = s.prefixReg := rfl
@[simp] theorem withCrcs_data : (withCrcs s n).data = s.data := rfl
@[simp] theorem withCrcs_crc : (withCrcs s n).crc = packetCrc s n := rfl
@[simp] theorem withCrcs_claim : (withCrcs s n).claim = s.trailer n := rfl
@[simp] theorem withCrcs_rxLen : (withCrcs s n).rxLen = s.rxLen := rfl
@[simp] theorem withCrcs_remain : (withCrcs s n).remain = s.remain := rfl
@[simp] theorem withCrcs_inBuf : (withCrcs s n).inBuf = s.inBuf := rfl
@[simp] theorem withCrcs_outBuf : (withCrcs s n).outBuf = s.outBuf := rfl
@[simp] theorem withCrcs_pending : (withCrcs s n).pending = s.pending := rfl
@[simp] theorem withCrcs_observed : (withCrcs s n).observed = s.observed := rfl

@[simp] theorem extracted_lastcmd : (extracted s n).lastcmd = s.lastcmd := rfl
@[simp] theorem extracted_status : (extracted s n).status = s.status := rfl
@[simp] theorem extracted_errcode : (extracted s n).errcode = s.errcode := rfl
@[simp] theorem extracted_inLen : (extracted s n).inLen = s.inLen := rfl
@[simp] theorem extracted_outLen : (extracted s n).outLen = s.outLen := rfl
@[simp] theorem extracted_prefixReg : (extracted s n).prefixReg = s.prefixReg := rfl
@[simp] theorem extracted_data : (extracted s n).data = s.data := rfl
@[simp] theorem extracted_crc : (extracted s n).crc = packetCrc s n := rfl
@[simp] theorem extracted_claim : (extracted s n).claim = s.trailer n := rfl
@[simp] theorem extracted_rxLen : (extracted s n).rxLen = s.inByte 0 := rfl
@[simp] theorem extracted_remain : (extracted s n).remain = s.remain := rfl
@[simp] theorem extracted_inBuf : (extracted s n).inBuf = s.inBuf := rfl
@[simp] theorem extracted_outBuf : (extracted s n).outBuf = s.outBuf := rfl
@[simp] theorem extracted_pending : (extracted s n).pending = s.pending := rfl
@[simp] theorem extracted_observed : (extracted s n).observed = s.observed := rfl

end packetState

variable {s}

theorem exec_valTrailer_short (h : s.inCount < 2) :
    exec .valTrailer s = .next (s.endCommand 0x05#8 .malformed false false) := by
  simp [exec, execValTrailer, Config.trailerLen, h, encode]

theorem exec_valTrailer_long (h : 2 ≤ s.inCount) :
    exec .valTrailer s = .next ((withCrcs s s.inCount).endCommand 0x05#8 .none
      (packetCrc s s.inCount == s.trailer s.inCount) false) := by
  simp [exec, execValTrailer, Config.trailerLen, show ¬s.inCount < 2 by omega, encode, withCrcs, packetCrc]

theorem exec_frameCmd_size (h : s.inCount = 0 ∨ 252 ≤ s.inCount) :
    exec .frameCmd s = .next ((s.setOut []).endCommand 0x06#8 .invalidSize false false) := by
  have h' : s.inCount = 0 ∨ 255 < s.inCount + 4 := by omega
  simp [exec, execFrameCmd, Config.maxFrame, h', encode]

theorem exec_frameCmd_frame (h : 1 ≤ s.inCount) (h' : s.inCount ≤ 251) :
    exec .frameCmd s = .next (((s.setOut (frame s.prefixReg (s.inSlice 0 s.inCount))).setCrc
      (frameCrc (s.inSlice 0 s.inCount))).endCommand 0x06#8 .none false false) := by
  have hn : ¬(s.inCount = 0 ∨ 255 < s.inCount + 4) := by omega
  simp [exec, execFrameCmd, Config.maxFrame, hn, encode]

theorem exec_valResp_short (h : s.inCount < 4) :
    exec .valResp s = .next ((s.setOut []).endCommand 0x07#8 .malformed false false) := by
  simp [exec, execValResp, Config.minPacket, h, encode]

theorem exec_valResp_mismatch (h : 4 ≤ s.inCount) (hc : packetCrc s s.inCount ≠ s.trailer s.inCount) :
    exec .valResp s = .next (((extracted s s.inCount).setOut []).endCommand 0x07#8 .checksumMismatch false
      ((s.inByte 0).toNat == s.inCount)) := by
  have hn : ¬s.inCount < Config.minPacket := Nat.not_lt.mpr h
  exact (if_neg hn).trans (if_pos hc)

theorem exec_valResp_match (h : 4 ≤ s.inCount) (hc : packetCrc s s.inCount = s.trailer s.inCount) :
    exec .valResp s = .next (((extracted s s.inCount).setOut (payload (s.inSlice 0 s.inCount))).endCommand 0x07#8 .none
      true ((s.inByte 0).toNat == s.inCount)) := by
  have hn : ¬s.inCount < Config.minPacket := Nat.not_lt.mpr h
  exact (if_neg hn).trans (if_neg (not_not_intro hc))

theorem exec_hdrExtract_short (h : s.inCount < 4) :
    exec .hdrExtract s = .next (s.endCommand 0x08#8 .malformed false false) := by
  simp [exec, execHdrExtract, Config.hdrLen, h, encode]

theorem exec_hdrExtract_small (h : 4 ≤ s.inCount) (hd : (s.inByte 0).toNat < 4) :
    exec .hdrExtract s = .next (((s.setRxLen (s.inByte 0)).setRemain 0x00#8).endCommand 0x08#8 .malformed false false) := by
  have hn : ¬s.inCount < Config.hdrLen := Nat.not_lt.mpr h
  exact (if_neg hn).trans (if_pos hd)

theorem exec_hdrExtract_length (h : 4 ≤ s.inCount) (hd : 4 ≤ (s.inByte 0).toNat) :
    exec .hdrExtract s = .next (((s.setRxLen (s.inByte 0)).setRemain
      (BitVec.ofNat 8 ((s.inByte 0).toNat - 4))).endCommand 0x08#8 .none false true) := by
  have hn : ¬s.inCount < Config.hdrLen := Nat.not_lt.mpr h
  exact (if_neg hn).trans (if_neg (Nat.not_lt.mpr hd))

theorem exec_chkWake_size (h : s.inCount ≠ 4) :
    exec .chkWake s = .next (s.endCommand 0x09#8 .malformed false false) := by
  simp [exec, execChkWake, Config.wakeLen, h, encode]

theorem exec_chkWake_mismatch (h : s.inCount = 4) (hc : packetCrc s 4 ≠ s.trailer 4) :
    exec .chkWake s = .next ((extracted s 4).endCommand 0x09#8 .checksumMismatch false ((s.inByte 0).toNat == 4)) := by
  exact (if_neg (not_not_intro h)).trans (if_pos hc)

theorem exec_chkWake_rejected (h : s.inCount = 4) (hc : packetCrc s 4 = s.trailer 4) (hw : s.inByte 1 ≠ 0x11#8) :
    exec .chkWake s = .next ((extracted s 4).endCommand 0x09#8 .wakeRejected true ((s.inByte 0).toNat == 4)) := by
  exact (if_neg (not_not_intro h)).trans <| (if_neg (not_not_intro hc)).trans (if_pos hw)

theorem exec_chkWake_accepted (h : s.inCount = 4) (hc : packetCrc s 4 = s.trailer 4) (hw : s.inByte 1 = 0x11#8) :
    exec .chkWake s = .next ((extracted s 4).endCommand 0x09#8 .none true ((s.inByte 0).toNat == 4)) := by
  exact (if_neg (not_not_intro h)).trans <| (if_neg (not_not_intro hc)).trans (if_neg (not_not_intro hw))

variable {t u : State} {v : Byte}

/-- What a command's own writes can change (R47): some of CRC, CLAIM, RX_LEN, REMAIN (at most 251) and OUT (rewritten with
at most 255 bytes). -/
structure BodyEffect (s u : State) : Prop where
  operands : u.inLen = s.inLen ∧ u.prefixReg = s.prefixReg ∧ u.data = s.data ∧ u.inBuf = s.inBuf
  host : u.pending = s.pending ∧ u.observed = s.observed
  out : (u.outBuf = s.outBuf ∧ u.outLen = s.outLen) ∨
    ∃ bs : List Byte, bs.length ≤ 255 ∧ u.outBuf = Memory.ofBytesFrom 0 bs ∧ u.outLen = BitVec.ofNat 8 bs.length
  remain : u.remain = s.remain ∨ u.remain.toNat ≤ 251

/-- What a command can change: its own writes, then the common completion (R46). -/
structure CommandEffect (s t : State) (v : Byte) : Prop extends BodyEffect s t where
  lastcmd : t.lastcmd = v
  outcome : ∃ e m l, t.errcode = ErrorCode.code e ∧ t.status = statusByte e m l

namespace BodyEffect

theorem refl (s : State) : BodyEffect s s := ⟨⟨rfl, rfl, rfl, rfl⟩, ⟨rfl, rfl⟩, .inl ⟨rfl, rfl⟩, .inl rfl⟩

theorem setCrc (h : BodyEffect s u) (c : Word) : BodyEffect s (u.setCrc c) := ⟨h.operands, h.host, h.out, h.remain⟩

theorem setClaim (h : BodyEffect s u) (k : Word) : BodyEffect s (u.setClaim k) := ⟨h.operands, h.host, h.out, h.remain⟩

theorem setRxLen (h : BodyEffect s u) (d : Byte) : BodyEffect s (u.setRxLen d) := ⟨h.operands, h.host, h.out, h.remain⟩

theorem setRemain (h : BodyEffect s u) {r : Byte} (hr : r.toNat ≤ 251) : BodyEffect s (u.setRemain r) :=
  ⟨h.operands, h.host, h.out, .inr hr⟩

theorem setOut (h : BodyEffect s u) {bs : List Byte} (hb : bs.length ≤ 255) : BodyEffect s (u.setOut bs) :=
  ⟨h.operands, h.host, .inr ⟨bs, hb, rfl, rfl⟩, h.remain⟩

theorem endCommand (h : BodyEffect s u) (v : Byte) (e : ErrorCode) (m l : Bool) :
    CommandEffect s (u.endCommand v e m l) v :=
  ⟨⟨h.operands, h.host, h.out, h.remain⟩, rfl, ⟨e, m, l, rfl, rfl⟩⟩

theorem withCrcs (s : State) (n : Nat) : BodyEffect s (withCrcs s n) := ((refl s).setCrc _).setClaim _

theorem extracted (s : State) (n : Nat) : BodyEffect s (extracted s n) := (withCrcs s n).setRxLen _

end BodyEffect

/-- Every command completes, and what it can change. -/
theorem exec_effect (i : Instr) (s : State) : ∃ t, exec i s = .next t ∧ CommandEffect s t (encode i) := by
  have hN : s.inCount < 256 := s.inLen.isLt
  have hr := BodyEffect.refl s
  cases i with
  | crcClr => exact ⟨_, exec_crcClr s, (hr.setCrc _).endCommand _ _ _ _⟩
  | crcByte => exact ⟨_, exec_crcByte s, (hr.setCrc _).endCommand _ _ _ _⟩
  | crcBuf => exact ⟨_, exec_crcBuf s, (hr.setCrc _).endCommand _ _ _ _⟩
  | crcCmp => exact ⟨_, exec_crcCmp s, (hr.setCrc _).endCommand _ _ _ _⟩
  | valTrailer =>
    rcases Nat.lt_or_ge s.inCount 2 with h | h
    · exact ⟨_, exec_valTrailer_short h, hr.endCommand _ _ _ _⟩
    · exact ⟨_, exec_valTrailer_long h, (BodyEffect.withCrcs s _).endCommand _ _ _ _⟩
  | frameCmd =>
    by_cases h : s.inCount = 0 ∨ 252 ≤ s.inCount
    · exact ⟨_, exec_frameCmd_size h, (hr.setOut (by simp)).endCommand _ _ _ _⟩
    · exact ⟨_, exec_frameCmd_frame (by omega) (by omega),
        ((hr.setOut (by simp [State.inSlice]; omega)).setCrc _).endCommand _ _ _ _⟩
  | valResp =>
    rcases Nat.lt_or_ge s.inCount 4 with h | h
    · exact ⟨_, exec_valResp_short h, (hr.setOut (by simp)).endCommand _ _ _ _⟩
    · by_cases hc : packetCrc s s.inCount = s.trailer s.inCount
      · exact ⟨_, exec_valResp_match h hc,
          ((BodyEffect.extracted s _).setOut (by simp [State.inSlice]; omega)).endCommand _ _ _ _⟩
      · exact ⟨_, exec_valResp_mismatch h hc, ((BodyEffect.extracted s _).setOut (by simp)).endCommand _ _ _ _⟩
  | hdrExtract =>
    rcases Nat.lt_or_ge s.inCount 4 with h | h
    · exact ⟨_, exec_hdrExtract_short h, hr.endCommand _ _ _ _⟩
    · rcases Nat.lt_or_ge (s.inByte 0).toNat 4 with hd | hd
      · exact ⟨_, exec_hdrExtract_small h hd, ((hr.setRxLen _).setRemain (by decide)).endCommand _ _ _ _⟩
      · have := (s.inByte 0).isLt
        exact ⟨_, exec_hdrExtract_length h hd, ((hr.setRxLen _).setRemain (by simp; omega)).endCommand _ _ _ _⟩
  | chkWake =>
    by_cases h : s.inCount = 4
    · by_cases hc : packetCrc s 4 = s.trailer 4
      · by_cases hw : s.inByte 1 = 0x11#8
        · exact ⟨_, exec_chkWake_accepted h hc hw, (BodyEffect.extracted s _).endCommand _ _ _ _⟩
        · exact ⟨_, exec_chkWake_rejected h hc hw, (BodyEffect.extracted s _).endCommand _ _ _ _⟩
      · exact ⟨_, exec_chkWake_mismatch h hc, (BodyEffect.extracted s _).endCommand _ _ _ _⟩
    · exact ⟨_, exec_chkWake_size h, hr.endCommand _ _ _ _⟩

/-- What a command that completed changed. -/
theorem exec_cases {i : Instr} (h : exec i s = .next t) : CommandEffect s t (encode i) := by
  obtain ⟨t', ht', heff⟩ := exec_effect i s
  rw [ht'] at h
  exact (Host.Outcome.next.inj h) ▸ heff

end Sys2Proof.Machine
end

