-- ==== Sys2Proof/Laws/Bus.lean ====
section
/-! SUPPORT. The address map, the host's accesses and the step: what each can do, said once. -/

namespace Sys2Proof.Machine

/-- Every byte either decodes to the command whose code it is, or is an illegal code. -/
theorem decode_cases (v : Byte) : (∃ i, decode v = .ok i ∧ encode i = v) ∨ decode v = .error (.illegalCode v) := by
  unfold decode
  cases h : opcodeTable.find? (fun row => v &&& codeMask == row.1) with
  | none => exact .inr rfl
  | some row =>
    refine .inl ⟨row.2, rfl, ?_⟩
    have hp := List.find?_some h
    have hmask : v &&& codeMask = v := BitVec.and_allOnes
    have hm : ∀ row ∈ opcodeTable, encode row.2 = row.1 := by decide
    rw [hm row (List.mem_of_find?_eq_some h)]
    simpa [hmask] using (beq_iff_eq.mp hp).symm

@[simp] theorem placeOf_regAddr (r : HostReg) : placeOf (regAddr r) = .reg r := by cases r <;> rfl

/-- An address in the IN window. -/
theorem placeOf_in {a : Addr} (h : a.toNat ≤ 0x0FF) : placeOf a = .inByte a.toNat := if_pos h

/-- An address in the OUT window. -/
theorem placeOf_out {a : Addr} (h : 0x100 ≤ a.toNat) (h' : a.toNat ≤ 0x1FF) : placeOf a = .outByte (a.toNat - 0x100) :=
  (if_neg (by omega)).trans (if_pos h')

/-- What an address can name, and which address it then is. -/
theorem placeOf_cases (a : Addr) :
    (a.toNat ≤ 0x0FF ∧ placeOf a = .inByte a.toNat) ∨
    (0x100 ≤ a.toNat ∧ a.toNat ≤ 0x1FF ∧ placeOf a = .outByte (a.toNat - 0x100)) ∨
    (∃ r, a = regAddr r ∧ placeOf a = .reg r) ∨
    (0x200 ≤ a.toNat ∧ (∀ r, a ≠ regAddr r) ∧ placeOf a = .reserved) := by
  by_cases h1 : a.toNat ≤ 0x0FF
  · exact .inl ⟨h1, placeOf_in h1⟩
  by_cases h2 : a.toNat ≤ 0x1FF
  · exact .inr (.inl ⟨by omega, h2, placeOf_out (by omega) h2⟩)
  refine .inr (.inr ?_)
  cases h : registerMap.find? (fun r => regAddr r == a) with
  | some r =>
    have ha : regAddr r = a := by simpa using List.find?_some h
    exact .inl ⟨r, ha.symm, ha ▸ placeOf_regAddr r⟩
  | none =>
    refine .inr ⟨by omega, fun r hr => ?_, ?_⟩
    · have hall : ∀ r, r ∈ registerMap := by intro r; cases r <;> decide
      simpa [hr] using List.find?_eq_none.mp h r (hall r)
    · unfold placeOf; rw [if_neg h1, if_neg h2, h]

@[simp] theorem toNat_inAddr {i : Nat} (h : i < 256) : (inAddr i).toNat = i := by
  simp [inAddr]; omega

@[simp] theorem toNat_outAddr {i : Nat} (h : i < 256) : (outAddr i).toNat = 0x100 + i := by
  simp [outAddr]; omega

theorem placeOf_inAddr {i : Nat} (h : i < 256) : placeOf (inAddr i) = .inByte i := by
  have := placeOf_in (a := inAddr i) (by rw [toNat_inAddr h]; omega)
  rwa [toNat_inAddr h] at this

theorem placeOf_outAddr {i : Nat} (h : i < 256) : placeOf (outAddr i) = .outByte i := by
  have := placeOf_out (a := outAddr i) (by rw [toNat_outAddr h]; exact Nat.le_add_right _ _)
    (by rw [toNat_outAddr h]; omega)
  rwa [toNat_outAddr h, Nat.add_sub_cancel_left] at this

variable (s : State)

theorem step_idle (h : s.pending = []) : step s = .next s := by
  simp [step, nextMove, h]

variable {s} {m : HostMove} {rest : List HostMove}

theorem step_move (h : s.pending = m :: rest) : step s = performMove m (s.setPending rest) := by
  simp [step, nextMove, h]

theorem step_read {a : Addr} (h : s.pending = .read a :: rest) :
    step s = .next ((s.setPending rest).observe (hostRead (s.setPending rest) a)) := step_move h

theorem step_write {a : Addr} {v : Byte} (h : s.pending = .write a v :: rest) :
    step s = hostWrite (s.setPending rest) a v := step_move h

theorem step_reset (h : s.pending = .reset :: rest) : step s = .next (State.reset.setPending rest) := step_move h

theorem hostWrite_reg (r : HostReg) (v : Byte) : hostWrite s (regAddr r) v = writeReg s r v := by
  simp [hostWrite]

theorem hostRead_reg (r : HostReg) : hostRead s (regAddr r) = readReg s r := by
  simp [hostRead]

theorem startCommand_legal {v : Byte} {i : Instr} (h : decode v = .ok i) : startCommand v s = exec i s := by
  simp [startCommand, h]

theorem startCommand_illegal {v : Byte} {e : DecodeError} (h : decode v = .error e) :
    startCommand v s = .next (s.endCommand v .illegalCommand false false) := by
  simp [startCommand, h, illegalCommand]

/-- Every CMD write completes, and what it can change. -/
theorem startCommand_effect (v : Byte) (s : State) : ∃ t, startCommand v s = .next t ∧ CommandEffect s t v := by
  rcases decode_cases v with ⟨i, hi, hv⟩ | he
  · obtain ⟨t, ht, heff⟩ := exec_effect i s
    exact ⟨t, (startCommand_legal hi).trans ht, hv ▸ heff⟩
  · exact ⟨_, startCommand_illegal he, (BodyEffect.refl s).endCommand _ _ _ _⟩

/-- What a host write can do: run a command, store one operand, or nothing. -/
inductive WriteEffect (s t : State) (a : Addr) (v : Byte) : Prop where
  | command (ha : a = regAddr .cmd) (h : CommandEffect s t v)
  | inByte (ha : a.toNat ≤ 0x0FF) (h : t = s.setInByte a.toNat v)
  | inLen (ha : a = regAddr .inLen) (h : t = s.setInLen v)
  | prefixReg (ha : a = regAddr .prefixReg) (h : t = s.setPrefixReg v)
  | data (ha : a = regAddr .data) (h : t = s.setData v)
  | claimLo (ha : a = regAddr .claimLo) (h : t = s.setClaim (leWord v (highByte s.claim)))
  | claimHi (ha : a = regAddr .claimHi) (h : t = s.setClaim (leWord (lowByte s.claim) v))
  | ignored (h : t = s)

/-- Every host write completes, and what it can change. -/
theorem hostWrite_effect (s : State) (a : Addr) (v : Byte) : ∃ t, hostWrite s a v = .next t ∧ WriteEffect s t a v := by
  rcases placeOf_cases a with ⟨ha, hp⟩ | ⟨-, -, hp⟩ | ⟨r, ha, hp⟩ | ⟨-, -, hp⟩
  · exact ⟨_, by simp only [hostWrite, hp], .inByte ha rfl⟩
  · exact ⟨s, by simp only [hostWrite, hp], .ignored rfl⟩
  · subst ha
    rw [hostWrite_reg]
    cases r with
    | cmd =>
      obtain ⟨t, ht, heff⟩ := startCommand_effect v s
      exact ⟨t, ht, .command rfl heff⟩
    | inLen => exact ⟨_, rfl, .inLen rfl rfl⟩
    | prefixReg => exact ⟨_, rfl, .prefixReg rfl rfl⟩
    | data => exact ⟨_, rfl, .data rfl rfl⟩
    | claimLo => exact ⟨_, rfl, .claimLo rfl rfl⟩
    | claimHi => exact ⟨_, rfl, .claimHi rfl rfl⟩
    | status | errcode | outLen | crcLo | crcHi | rxLen | remain => exact ⟨_, rfl, .ignored rfl⟩
  · exact ⟨s, by simp only [hostWrite, hp], .ignored rfl⟩

/-- What one step can do. -/
inductive StepEffect (s t : State) : Prop where
  | idle (hp : s.pending = []) (h : t = s)
  | read (a : Addr) (rest : List HostMove) (hp : s.pending = .read a :: rest)
      (h : t = (s.setPending rest).observe (hostRead (s.setPending rest) a))
  | write (a : Addr) (v : Byte) (rest : List HostMove) (hp : s.pending = .write a v :: rest)
      (h : WriteEffect (s.setPending rest) t a v)
  | reset (rest : List HostMove) (hp : s.pending = .reset :: rest) (h : t = State.reset.setPending rest)

/-- Every step completes, and what it can do. -/
theorem step_effect (s : State) : ∃ t, step s = .next t ∧ StepEffect s t := by
  cases hp : s.pending with
  | nil => exact ⟨s, step_idle s hp, .idle hp rfl⟩
  | cons m rest =>
    cases m with
    | read a => exact ⟨_, step_read hp, .read a rest hp rfl⟩
    | write a v =>
      obtain ⟨t, ht, heff⟩ := hostWrite_effect (s.setPending rest) a v
      exact ⟨t, (step_write hp).trans ht, .write a v rest hp heff⟩
    | reset => exact ⟨_, step_reset hp, .reset rest hp rfl⟩

/-- What a step that completed did. -/
theorem step_cases {t : State} (h : step s = .next t) : StepEffect s t := by
  obtain ⟨t', ht', heff⟩ := step_effect s
  rw [ht'] at h
  exact (Host.Outcome.next.inj h) ▸ heff

end Sys2Proof.Machine
end

