-- ==== Sys2Proof/Laws/Flags.lean ====
section
/-! SUPPORT. The STATUS byte, flag by flag, and the error codes. -/

namespace Sys2Proof.Machine

/-- STATUS as a number: LEN_OK counts 4, MATCH counts 2, ERR counts 1. -/
theorem toNat_statusByte (e : ErrorCode) (m l : Bool) :
    (statusByte e m l).toNat = (if l then 4 else 0) + (if m then 2 else 0) + (if e = .none then 0 else 1) := by
  cases e <;> cases m <;> cases l <;> decide

/-- STATUS after a command without error. -/
theorem statusByte_none (m l : Bool) :
    statusByte .none m l = if l then (if m then 0x06#8 else 0x04#8) else (if m then 0x02#8 else 0x00#8) := by
  cases m <;> cases l <;> decide

/-- STATUS after an error. -/
theorem statusByte_error {e : ErrorCode} (h : e ≠ .none) (m l : Bool) :
    statusByte e m l = if l then (if m then 0x07#8 else 0x05#8) else (if m then 0x03#8 else 0x01#8) := by
  cases e <;> first | exact absurd rfl h | (cases m <;> cases l <;> decide)

/-- MATCH after a command. -/
@[simp] theorem State.endCommand_matchFlag (s : State) (v : Byte) (e : ErrorCode) (m l : Bool) :
    (s.endCommand v e m l).matchFlag = m := by
  show (statusByte e m l).getLsbD 1 = m
  cases e <;> cases m <;> cases l <;> decide

/-- LEN_OK after a command. -/
@[simp] theorem State.endCommand_lenOkFlag (s : State) (v : Byte) (e : ErrorCode) (m l : Bool) :
    (s.endCommand v e m l).lenOkFlag = l := by
  show (statusByte e m l).getLsbD 2 = l
  cases e <;> cases m <;> cases l <;> decide

/-- ERR after a command (R46). -/
@[simp] theorem State.endCommand_errFlag (s : State) (v : Byte) (e : ErrorCode) (m l : Bool) :
    (s.endCommand v e m l).errFlag = (e != .none) := by
  show (statusByte e m l).getLsbD 0 = (e != .none)
  cases e <;> cases m <;> cases l <;> decide

/-- The error codes are 0x00 to 0x05 (R18, R82). -/
theorem ErrorCode.toNat_code_le (e : ErrorCode) : e.code.toNat ≤ 5 := by cases e <;> decide

/-- Only NONE has code 0x00 (R82). -/
theorem ErrorCode.code_eq_zero {e : ErrorCode} : e.code = 0x00#8 ↔ e = .none := by cases e <;> decide

end Sys2Proof.Machine
end

