-- ==== Sys2Proof/Laws/Operands.lean ====
section
/-! SUPPORT. The operands the commands read from IN: slices byte by byte, and what they depend on. -/

namespace Sys2Proof.Machine

@[simp] theorem State.length_inSlice (s : State) (i j : Nat) : (s.inSlice i j).length = j - i :=
  Memory.length_slice s.inBuf i j

/-- A byte of a slice of IN. -/
theorem State.getElem_inSlice (s : State) (i j k : Nat) (h : k < (s.inSlice i j).length) :
    (s.inSlice i j)[k] = s.inByte (i + k) := Memory.getElem_slice s.inBuf i j k h

/-- A slice of IN is the bytes it holds. -/
theorem State.inSlice_eq {s : State} {i j : Nat} {bs : List Byte} (hl : bs.length = j - i)
    (h : ∀ k : Nat, (hk : k < bs.length) → s.inByte (i + k) = bs[k]) : s.inSlice i j = bs :=
  List.ext_getElem (by simp [hl]) fun k hk hk' => (s.getElem_inSlice i j k hk).trans (h k hk')

/-- Slices of states that hold the same bytes there are equal. -/
theorem State.inSlice_congr {s t : State} {i j : Nat} (h : ∀ k : Nat, i ≤ k → k < j → t.inByte k = s.inByte k) :
    t.inSlice i j = s.inSlice i j := Memory.slice_congr h

/-- The claimed CRC depends on the two trailer bytes. -/
theorem State.trailer_congr {s t : State} {n : Nat} (h : t.inByte (n - 2) = s.inByte (n - 2))
    (h' : t.inByte (n - 1) = s.inByte (n - 1)) : t.trailer n = s.trailer n := by
  rw [State.trailer, State.trailer, h, h']

end Sys2Proof.Machine
end

