-- ==== Sys2Proof/Laws/PerInstr.lean ====
section
/-! SUPPORT. Statements made per instruction, with one lemma per constructor of Instr. -/

namespace Sys2Proof.Laws.RoundTrip

/-- The command's code decodes to it again, and the command is well formed (R45, R47). -/
def Statement (i : Instr) : Prop := i.wf = true ∧ decode (encode i) = .ok i

theorem crcClr : Statement .crcClr := ⟨rfl, rfl⟩
theorem crcByte : Statement .crcByte := ⟨rfl, rfl⟩
theorem crcBuf : Statement .crcBuf := ⟨rfl, rfl⟩
theorem crcCmp : Statement .crcCmp := ⟨rfl, rfl⟩
theorem valTrailer : Statement .valTrailer := ⟨rfl, rfl⟩
theorem frameCmd : Statement .frameCmd := ⟨rfl, rfl⟩
theorem valResp : Statement .valResp := ⟨rfl, rfl⟩
theorem hdrExtract : Statement .hdrExtract := ⟨rfl, rfl⟩
theorem chkWake : Statement .chkWake := ⟨rfl, rfl⟩

end Sys2Proof.Laws.RoundTrip
end

