-- ==== Sys2Proof/Laws/Run.lean ====
section
/-! SUPPORT. Runs: several steps, and the canonical form of the buffers along them. -/

namespace Sys2Proof.Machine

variable {s t : State}

theorem run_zero (s : State) : run 0 s = .next s := rfl

theorem run_succ (h : step s = .next t) (k : Nat) : run (k + 1) s = run k t := by
  have hs : Sys2Proof.core.step s = .next t := h
  simp only [run, Host.Core.run, hs]
  rfl

theorem run_one (h : step s = .next t) : run 1 s = .next t := run_succ h 0

theorem run_add {j : Nat} (h : run j s = .next t) (k : Nat) : run (j + k) s = run k t := by
  induction j generalizing s with
  | zero => cases h; rw [Nat.zero_add]
  | succ j ih =>
    obtain ⟨u, hu, -⟩ := step_effect s
    rw [run_succ hu] at h
    rw [Nat.add_right_comm, run_succ hu, ih h]

/-- Every command keeps IN and leaves OUT canonical. -/
theorem CommandEffect.wf {v : Byte} (h : CommandEffect s t v) (hi : s.inBuf.wf = true) (ho : s.outBuf.wf = true) :
    t.inBuf.wf = true ∧ t.outBuf.wf = true := by
  refine ⟨h.operands.2.2.2 ▸ hi, ?_⟩
  rcases h.out with ⟨hb, -⟩ | ⟨bs, hlen, hb, -⟩
  · exact hb ▸ ho
  · exact hb ▸ Memory.wf_ofBytes bs (by simp [Config.bufSize]; omega)

/-- Every host write keeps both buffers canonical. -/
theorem WriteEffect.wf {a : Addr} {v : Byte} (h : WriteEffect s t a v) (hi : s.inBuf.wf = true)
    (ho : s.outBuf.wf = true) : t.inBuf.wf = true ∧ t.outBuf.wf = true := by
  cases h with
  | command ha h => exact h.wf hi ho
  | inByte ha h => subst h; exact ⟨Memory.wf_write hi (by simp [Config.bufSize]; omega) v, ho⟩
  | inLen ha h | prefixReg ha h | data ha h | claimLo ha h | claimHi ha h => subst h; exact ⟨hi, ho⟩
  | ignored h => subst h; exact ⟨hi, ho⟩

/-- Reset memory is canonical. -/
theorem reset_wf : State.reset.inBuf.wf = true ∧ State.reset.outBuf.wf = true := ⟨rfl, rfl⟩

/-- Every step keeps both buffers canonical: every memory operation of the model keeps the form. -/
theorem step_keeps_wf (h : step s = .next t) (hi : s.inBuf.wf = true) (ho : s.outBuf.wf = true) :
    t.inBuf.wf = true ∧ t.outBuf.wf = true := by
  cases step_cases h with
  | idle hp h => subst h; exact ⟨hi, ho⟩
  | read a rest hp h => subst h; exact ⟨hi, ho⟩
  | write a v rest hp h => exact h.wf hi ho
  | reset rest hp h => subst h; exact reset_wf

end Sys2Proof.Machine
end

