-- ==== Sys2Proof/Tests/Slice0.lean ====
section
/-! SUPPORT. Small tests against the spec's own vectors (95_test_vectors.md), the smoke test of WellFormed, the decoding of
every command's word, and for each statement with hypotheses or clauses a witness that meets them. -/

namespace Sys2Proof.Machine

/-- The state after reset with `bs` loaded as a packet: `bs` in IN and their number in IN_LEN. -/
def withInput (bs : List Byte) : State :=
  { State.reset with inBuf := Memory.ofBytesFrom 0 bs, inLen := BitVec.ofNat 8 bs.length }

/-- The state after reset with IN_LEN = `n` and every byte of IN 0x00. -/
def withZeros (n : Byte) : State := State.reset.setInLen n

/-- The outcome is a next state that passes the check. -/
def answers (o : Host.Outcome State Fault Refusal) (p : State → Bool) : Bool :=
  match o with
  | .next t => p t
  | .fault _ => false
  | .refused _ => false

/-- A check that passes gives a next state that passes it. -/
theorem answers_next {o : Host.Outcome State Fault Refusal} {p : State → Bool} (h : answers o p = true) :
    ∃ t, o = .next t ∧ p t = true := by
  cases o with
  | next t => exact ⟨t, rfl, h⟩
  | fault r => cases r
  | refused r => cases h

/-- LASTCMD, ERRCODE and STATUS in one line. -/
def done (t : State) (v e st : Byte) : Bool := t.lastcmd == v && t.errcode == e && t.status == st

/-! ## WellFormed: each check refuses an ill-formed term -/

theorem test_wf_load_255 : (Pseudo.load (List.replicate 255 0x00#8)).wf = true := by decide +kernel
theorem test_wf_load_256_refused : (Pseudo.load (List.replicate 256 0x00#8)).wf = false := by decide +kernel
theorem test_wf_rdOut_256 : (Pseudo.rdOut 256).wf = true := by decide
theorem test_wf_rdOut_257_refused : (Pseudo.rdOut 257).wf = false := by decide

/-! ## Decoding: every word written out bit by bit from opcode_table.json's "encoding" -/

theorem test_decode_crcClr : decode 0b00000001#8 = .ok .crcClr := rfl
theorem test_decode_crcByte : decode 0b00000010#8 = .ok .crcByte := rfl
theorem test_decode_crcBuf : decode 0b00000011#8 = .ok .crcBuf := rfl
theorem test_decode_crcCmp : decode 0b00000100#8 = .ok .crcCmp := rfl
theorem test_decode_valTrailer : decode 0b00000101#8 = .ok .valTrailer := rfl
theorem test_decode_frameCmd : decode 0b00000110#8 = .ok .frameCmd := rfl
theorem test_decode_valResp : decode 0b00000111#8 = .ok .valResp := rfl
theorem test_decode_hdrExtract : decode 0b00001000#8 = .ok .hdrExtract := rfl
theorem test_decode_chkWake : decode 0b00001001#8 = .ok .chkWake := rfl
theorem test_decode_00_illegal : decode 0x00#8 = .error (.illegalCode 0x00#8) := rfl
theorem test_decode_0A_illegal : decode 0x0A#8 = .error (.illegalCode 0x0A#8) := rfl
theorem test_decode_FF_illegal : decode 0xFF#8 = .error (.illegalCode 0xFF#8) := rfl
theorem test_decodeBytes_none : decodeBytes [] = .error .noByte := rfl
/-- No two rows of the table have one code. -/
theorem test_table_no_overlap : opcodeTable.Pairwise (fun r r' => r.1 ≠ r'.1) := by decide
theorem test_table_word : decodeTableWord 8 9 = some .chkWake ∧ decodeTableWord 8 10 = none := by decide

/-! ## The CRC function: 95_test_vectors.md section 2.1 -/

theorem test_crc_digits :
    crc16 [0x31#8, 0x32#8, 0x33#8, 0x34#8, 0x35#8, 0x36#8, 0x37#8, 0x38#8, 0x39#8] = 0xBCDD#16 := by decide +kernel
theorem test_crc_trailing_zero : crc16 [0x01#8, 0x00#8] = 0x8009#16 ∧ crc16 [0xFF#8, 0xFF#8] = 0x800D#16 := by
  decide +kernel

/-! ## The commands: at most two vectors of 95_test_vectors.md each -/

/-- V1. -/
theorem test_crcClr : answers (exec .crcClr (State.reset.setCrc 0x4333#16))
    (fun t => t.crc == 0x0000#16 && done t 0x01#8 0x00#8 0x00#8) = true := by decide +kernel
/-- V5. -/
theorem test_crcByte_continues : answers (exec .crcByte (State.reset.setCrc 0x4333#16))
    (fun t => t.crc == 0xB289#16 && done t 0x02#8 0x00#8 0x00#8) = true := by decide +kernel
/-- V3, second half. -/
theorem test_crcByte_feed : answers (exec .crcByte ((State.reset.setCrc 0x80C3#16).setData 0x11#8))
    (fun t => t.crc == 0x4333#16) = true := by decide +kernel
/-- V8, V11: bytes at or above IN_LEN are not read. -/
theorem test_crcBuf_stale : answers (exec .crcBuf ((withInput [0x04#8, 0x11#8, 0x33#8, 0x43#8]).setInLen 0x02#8))
    (fun t => hostRead t (regAddr .crcLo) == 0x33#8 && hostRead t (regAddr .crcHi) == 0x43#8) = true := by decide +kernel
/-- V12. -/
theorem test_crcCmp_match : answers (exec .crcCmp ((withInput [0x04#8, 0x11#8]).setClaim 0x4333#16))
    (fun t => t.crc == 0x4333#16 && done t 0x04#8 0x00#8 0x02#8) = true := by decide +kernel
/-- V13. -/
theorem test_crcCmp_swapped : answers (exec .crcCmp ((withInput [0x04#8, 0x11#8]).setClaim 0x3343#16))
    (fun t => t.crc == 0x4333#16 && done t 0x04#8 0x00#8 0x00#8) = true := by decide +kernel
/-- V18. -/
theorem test_valTrailer_short : answers (exec .valTrailer ((withInput [0x00#8]).setCrc 0x1234#16))
    (fun t => t.crc == 0x1234#16 && done t 0x05#8 0x01#8 0x01#8) = true := by decide +kernel
/-- V20. -/
theorem test_valTrailer_mismatch : answers (exec .valTrailer (withInput [0x01#8, 0x00#8]))
    (fun t => t.crc == 0x0000#16 && t.claim == 0x0001#16 && done t 0x05#8 0x00#8 0x00#8) = true := by decide +kernel
/-- V27. -/
theorem test_frameCmd_read : answers (exec .frameCmd (withInput [0x02#8, 0x00#8, 0x00#8, 0x00#8]))
    (fun t => t.outBuf.slice 0 9 == [0x03#8, 0x07#8, 0x02#8, 0x00#8, 0x00#8, 0x00#8, 0x1E#8, 0x2D#8, 0x00#8] &&
      t.outLen == 0x08#8 && t.crc == 0x2D1E#16 && done t 0x06#8 0x00#8 0x00#8) = true := by decide +kernel
/-- V29, with the body's bytes left 0x00 and OUT filled before (V30). -/
theorem test_frameCmd_252 : answers (exec .frameCmd (((withZeros 252#8).setOut [0x55#8]).setCrc 0x430F#16))
    (fun t => t.outBuf == [] && t.outLen == 0x00#8 && t.crc == 0x430F#16 && done t 0x06#8 0x03#8 0x01#8) = true := by
  decide +kernel
/-- S5d. -/
theorem test_valResp_payload : answers (exec .valResp (withInput [0x07#8, 0x01#8, 0x23#8, 0x45#8, 0x67#8, 0x31#8, 0x6C#8]))
    (fun t => t.outBuf.slice 0 5 == [0x01#8, 0x23#8, 0x45#8, 0x67#8, 0x00#8] && t.outLen == 0x04#8 &&
      t.crc == 0x6C31#16 && t.claim == 0x6C31#16 && t.rxLen == 0x07#8 && done t 0x07#8 0x00#8 0x06#8) = true := by
  decide +kernel
/-- S6g. -/
theorem test_valResp_mismatch : answers (exec .valResp (withInput [0x09#8, 0x01#8, 0x23#8, 0x45#8, 0x67#8, 0x31#8, 0x6C#8]))
    (fun t => t.outBuf == [] && t.outLen == 0x00#8 && t.crc == 0xFAB2#16 && t.claim == 0x6C31#16 && t.rxLen == 0x09#8 &&
      done t 0x07#8 0x02#8 0x01#8) = true := by decide +kernel
/-- V38. -/
theorem test_hdrExtract_FF : answers (exec .hdrExtract (withInput [0xFF#8, 0x00#8, 0x00#8, 0x00#8]))
    (fun t => t.rxLen == 0xFF#8 && t.remain == 0xFB#8 && done t 0x08#8 0x00#8 0x04#8) = true := by decide +kernel
/-- V39. -/
theorem test_hdrExtract_3 : answers (exec .hdrExtract ((withInput [0x03#8, 0x00#8, 0x00#8, 0x00#8]).setRemain 0x09#8))
    (fun t => t.rxLen == 0x03#8 && t.remain == 0x00#8 && done t 0x08#8 0x01#8 0x01#8) = true := by decide +kernel
/-- S7a, Scenario A. -/
theorem test_chkWake_accepted : answers (exec .chkWake (withInput [0x04#8, 0x11#8, 0x33#8, 0x43#8]))
    (fun t => t.crc == 0x4333#16 && t.claim == 0x4333#16 && t.rxLen == 0x04#8 && done t 0x09#8 0x00#8 0x06#8) = true := by
  decide +kernel
/-- V46: a bad CRC is reported before a bad status. -/
theorem test_chkWake_priority : answers (exec .chkWake (withInput [0x04#8, 0x00#8, 0x33#8, 0x43#8]))
    (fun t => t.crc == 0x4003#16 && t.claim == 0x4333#16 && done t 0x09#8 0x02#8 0x05#8) = true := by decide +kernel

/-! ## The bus and the step -/

/-- V51. -/
theorem test_illegal_00 : answers (step ((State.reset.setCrc 0x4333#16).setPending [.write 0x200#10 0x00#8]))
    (fun t => t.crc == 0x4333#16 && done t 0x00#8 0x05#8 0x01#8) = true := by decide +kernel
/-- V54: reserved addresses read 0x00 whatever the state. -/
theorem test_reserved_reads : hostRead ((withInput [0x55#8]).setData 0xAA#8) 0x207#10 = 0x00#8 ∧
    hostRead State.reset 0x20E#10 = 0x00#8 ∧ hostRead State.reset 0x3FF#10 = 0x00#8 := by decide +kernel
/-- V58: IN[255] is readable and writable. -/
theorem test_in_255 : answers (step (State.reset.setPending [.write 0x0FF#10 0xAB#8]))
    (fun t => hostRead t 0x0FF#10 == 0xAB#8 && hostRead t 0x100#10 == 0x00#8) = true := by decide +kernel
/-- V56, V57: OUT and CRC are read-only to the host. -/
theorem test_ignored_writes :
    answers (step (State.reset.setPending [.write 0x100#10 0x55#8])) (fun t => t == State.reset) = true ∧
    answers (step (State.reset.setPending [.write 0x208#10 0x12#8])) (fun t => t == State.reset) = true := by decide +kernel
/-- The fetch word runs its command first after reset. -/
theorem test_fetch_word : answers (step (State.reset.withFetchWord 8 0x08))
    (fun t => done t 0x08#8 0x01#8 0x01#8 && t.pending == []) = true := by decide +kernel

/-! ## Witnesses: a state and operands that meet a statement's hypotheses, one for each clause -/

/-- The packet of S5d. -/
def goodPacket : State := withInput [0x07#8, 0x01#8, 0x23#8, 0x45#8, 0x67#8, 0x31#8, 0x6C#8]

/-- The packet of S6d: the high trailer byte of S5d tampered with. -/
def badPacket : State := withInput [0x07#8, 0x01#8, 0x23#8, 0x45#8, 0x67#8, 0x31#8, 0x6D#8]

/-- The packet of V32: four zero bytes, whose CRC matches and whose length byte is wrong. -/
def zeroPacket : State := withZeros 0x04#8

theorem witness_StreamedBytesLeaveTheirCrc : ∃ (s : State) (bs : List Byte) (rest : List HostMove) (u : State),
    s.pending = expand (.command .crcClr) ++ expandAll (bs.map .feed) ++ rest ∧ bs ≠ [] ∧
    u.inSlice 0 u.inLen.toNat = bs :=
  ⟨State.reset.setPending _, [0x04#8, 0x11#8], [], withInput [0x04#8, 0x11#8], rfl, by decide, by decide +kernel⟩

theorem witness_CrcIsLinearAndBlindToLeadingZeros : ∃ (a b : List Byte) (s : State), a.length = b.length ∧ a ≠ b ∧
    s.inLen = 0x04#8 ∧ s.inSlice 0 4 = [0x00#8, 0x00#8, 0x00#8, 0x00#8] :=
  ⟨[0x01#8], [0x02#8], zeroPacket, rfl, by decide, rfl, by decide +kernel⟩

theorem witness_CrcByteAndEmptyInput : ∃ s : State, s.data = 0x00#8 ∧ s.crc = 0x0000#16 ∧ s.inLen = 0x00#8 :=
  ⟨State.reset, rfl, rfl, rfl⟩

/-- The clauses of VAL_TRAILER's statement, at N = 1 and N = 2. -/
theorem witness_ValTrailerChecksTheLastTwoBytes :
    (withZeros 0x01#8).inLen.toNat < 2 ∧ ¬(withZeros 0x02#8).inLen.toNat < 2 := by decide

theorem witness_TrailerRoundTrip : ∀ n ∈ [0, 253], ∃ (s : State) (bs : List Byte) (rest : List HostMove),
    s.inBuf.wf = true ∧ bs.length = n ∧ bs.length ≤ 253 ∧
    s.pending = expand (.load (bs ++ leBytes (crc16 bs))) ++ expand (.command .valTrailer) ++ rest := by
  intro n hn
  exact ⟨State.reset.setPending _, List.replicate n 0x5A#8, [], rfl, by simp,
    by rw [List.length_replicate]; revert n; decide, rfl⟩

/-- The clauses of FRAME_CMD's statement, at N = 0, 1, 251 and 252. -/
theorem witness_FrameCmdBuildsTheCommandFrame :
    (∀ n ∈ [0x00#8, 252#8, 255#8], (withZeros n).inLen.toNat = 0 ∨ 252 ≤ (withZeros n).inLen.toNat) ∧
    ∀ n ∈ [1#8, 251#8], ¬((withZeros n).inLen.toNat = 0 ∨ 252 ≤ (withZeros n).inLen.toNat) := by decide

/-- Zero bytes leave the register at 0x0000 (R70), whatever their number. -/
theorem crc16_zeros (n : Byte) (k : Nat) : crc16 ((withZeros n).inSlice 0 k) = 0x0000#16 := by
  have h0 : crcStep 0x0000#16 0x00#8 = 0x0000#16 := by decide +kernel
  have h : ∀ l : List Nat, (l.map fun j => (withZeros n).inBuf.read (0 + j)).foldl crcStep 0x0000#16 = 0x0000#16 := by
    intro l
    induction l with
    | nil => rfl
    | cons a l ih =>
      rw [List.map_cons, List.foldl_cons]
      exact (congrArg (fun c => List.foldl crcStep c _) h0).trans ih
  exact h _

/-- A packet of zero bytes validates at every length (R70). -/
theorem zeros_validate (n : Byte) : crc16 ((withZeros n).inSlice 0 ((withZeros n).inLen.toNat - 2)) =
    (withZeros n).trailer (withZeros n).inLen.toNat := (crc16_zeros n _).trans
  (by show 0x0000#16 = leWord 0x00#8 0x00#8; decide)

/-- The clauses of VAL_RESP's statement: N = 3; N = 4 and 255 with a matching CRC, length byte wrong; N = 7 with a matching
CRC and length byte; N = 7 with a bad trailer. -/
theorem witness_ValRespValidatesAndExtractsThePayload :
    (withZeros 3#8).inLen.toNat < 4 ∧
    (∀ s ∈ [goodPacket, withZeros 4#8, withZeros 255#8], 4 ≤ s.inLen.toNat ∧
      crc16 (s.inSlice 0 (s.inLen.toNat - 2)) = s.trailer s.inLen.toNat) ∧
    (withZeros 4#8).inByte 0 ≠ (withZeros 4#8).inLen ∧ goodPacket.inByte 0 = goodPacket.inLen ∧
    4 ≤ badPacket.inLen.toNat ∧
    crc16 (badPacket.inSlice 0 (badPacket.inLen.toNat - 2)) ≠ badPacket.trailer badPacket.inLen.toNat := by
  refine ⟨by decide, ?_, by decide +kernel⟩
  rw [List.forall_mem_cons, List.forall_mem_cons, List.forall_mem_singleton]
  exact ⟨by decide +kernel, ⟨by decide, zeros_validate _⟩, by decide, zeros_validate _⟩

/-- The clauses of HDR_EXTRACT's statement: N = 3; N = 4 with D = 3 and with D = 4. -/
theorem witness_HdrExtractReadsTheDeclaredLength :
    (withZeros 3#8).inLen.toNat < 4 ∧
    (∀ d ∈ [3#8, 4#8], ¬((withZeros 4#8).setInByte 0 d).inLen.toNat < 4) ∧
    (((withZeros 4#8).setInByte 0 3#8).inByte 0).toNat < 4 ∧ ¬(((withZeros 4#8).setInByte 0 4#8).inByte 0).toNat < 4 := by
  decide +kernel

/-- The clauses of CHK_WAKE's statement: N = 3 and 5; then S7a, S7b, V45, V48 with N = 4. -/
theorem witness_ChkWakeAcceptsOnlyTheWakeAcknowledge :
    (∀ n ∈ [3#8, 5#8], (withZeros n).inLen ≠ 0x04#8) ∧
    (∀ s ∈ [withInput [0x04#8, 0x11#8, 0x33#8, 0x43#8], withInput [0x05#8, 0x11#8, 0x3A#8, 0xC3#8],
        withInput [0x04#8, 0x00#8, 0x03#8, 0x40#8]],
      s.inLen = 0x04#8 ∧ crc16 [s.inByte 0, s.inByte 1] = leWord (s.inByte 2) (s.inByte 3)) ∧
    (withInput [0x04#8, 0x11#8, 0x43#8, 0x33#8]).inLen = 0x04#8 ∧ crc16 [0x04#8, 0x11#8] ≠ leWord 0x43#8 0x33#8 := by
  decide +kernel

theorem witness_FramedLengthsRoundTrip : ∀ n ∈ [1#8, 251#8], ∃ s : State, s.inLen = n ∧ 1 ≤ s.inLen.toNat ∧
    s.inLen.toNat ≤ 251 := by
  intro n hn
  exact ⟨withZeros n, rfl, by revert n; decide, by revert n; decide⟩

theorem witness_ValidatedPayloadIsThreeBytesShorter : ∀ s ∈ [goodPacket, withZeros 4#8, withZeros 255#8],
    4 ≤ s.inLen.toNat ∧ crc16 (s.inSlice 0 (s.inLen.toNat - 2)) = s.trailer s.inLen.toNat := by
  rw [List.forall_mem_cons, List.forall_mem_cons, List.forall_mem_singleton]
  exact ⟨by decide +kernel, ⟨by decide, zeros_validate _⟩, by decide, zeros_validate _⟩

/-- One bit of either trailer byte of a good packet flipped, at the ends of `k`'s range. -/
theorem witness_ShortOrTamperedResponsesAreRejected :
    (withZeros 3#8).inLen.toNat < 4 ∧
    ∀ j ∈ [5, 6], ∀ k ∈ [0, 7], ∃ s u : State, 4 ≤ s.inLen.toNat ∧
      crc16 (s.inSlice 0 (s.inLen.toNat - 2)) = s.trailer s.inLen.toNat ∧ u.inLen = s.inLen ∧
      (j = s.inLen.toNat - 2 ∨ j = s.inLen.toNat - 1) ∧ k < 8 ∧
      ∀ i : Nat, u.inByte i = if i = j then s.inByte i ^^^ BitVec.ofNat 8 (2 ^ k) else s.inByte i := by
  refine ⟨by decide, fun j hj k hk => ⟨goodPacket, goodPacket.setInByte j (goodPacket.inByte j ^^^ BitVec.ofNat 8 (2 ^ k)),
    by decide, by decide +kernel, rfl, by revert j; decide, by revert k; decide, fun i => ?_⟩⟩
  have h := Memory.read_write (m := goodPacket.inBuf) (by decide +kernel) j
    (goodPacket.inByte j ^^^ BitVec.ofNat 8 (2 ^ k)) i
  refine h.trans ?_
  split
  · next hi => subst hi; rfl
  · rfl

/-- V25 and V35: the frame of the body 0x41, given back without its prefix. -/
theorem witness_EncoderAndDecoderAgree : ∃ s t u : State, exec .frameCmd s = .next t ∧ t.errcode = 0x00#8 ∧
    u.inLen.toNat = s.inLen.toNat + 3 ∧ ∀ i : Nat, i < s.inLen.toNat + 3 → u.inByte i = t.outBuf.read (i + 1) := by
  have h : answers (exec .frameCmd (withInput [0x41#8])) (fun t => t.errcode == 0x00#8 &&
      (List.range 4).all fun i => (withInput [0x04#8, 0x41#8, 0x0F#8, 0x43#8]).inByte i == t.outBuf.read (i + 1)) = true := by
    decide +kernel
  obtain ⟨t, ht, hp⟩ := answers_next h
  simp only [Bool.and_eq_true, beq_iff_eq, List.all_eq_true, List.mem_range] at hp
  exact ⟨_, t, _, ht, hp.1, by decide, fun i hi => hp.2 i hi⟩

/-- P3: the header of S5d, then the whole packet. -/
theorem witness_HeaderThenPacketHasAConsistentLength : ∃ s t u : State, s.inLen = 0x04#8 ∧
    exec .hdrExtract s = .next t ∧ t.errcode = 0x00#8 ∧ u.inLen.toNat = 4 + t.remain.toNat ∧
    ∀ i : Nat, i < 4 → u.inByte i = s.inByte i := by
  have h : answers (exec .hdrExtract (goodPacket.setInLen 0x04#8)) (fun t => t.errcode == 0x00#8 &&
      decide (goodPacket.inLen.toNat = 4 + t.remain.toNat)) = true := by decide +kernel
  obtain ⟨t, ht, hp⟩ := answers_next h
  simp only [Bool.and_eq_true, beq_iff_eq, decide_eq_true_eq] at hp
  exact ⟨_, t, goodPacket, rfl, ht, hp.1, hp.2, fun i _ => rfl⟩

/-- S6a and S6d: a packet too short, and a packet whose trailer is wrong. -/
theorem witness_RejectedPacketsExposeNoPayload : ∀ s ∈ [State.reset, badPacket], ∃ t : State,
    exec .valResp s = .next t ∧ t.errcode ≠ 0x00#8 := by
  intro s hs
  have h : ∀ s ∈ [State.reset, badPacket], answers (exec .valResp s) (fun t => t.errcode != 0x00#8) = true := by
    decide +kernel
  obtain ⟨t, ht, hp⟩ := answers_next (h s hs)
  exact ⟨t, ht, by simpa using hp⟩

theorem witness_StepRunsTheDecodedCommand : ∀ i : Instr, ∃ (s : State) (v : Byte) (rest : List HostMove),
    s.pending = .write 0x200#10 v :: rest ∧ decode v = .ok i := by
  intro i
  exact ⟨State.reset.setPending (.write 0x200#10 (encode i) :: []), encode i, [], rfl, by cases i <;> rfl⟩

theorem witness_IllegalCodesRaiseIllegalCommand : ∀ v ∈ [0x00#8, 0x0A#8, 0xFF#8], ∃ (s : State) (rest : List HostMove),
    s.pending = .write 0x200#10 v :: rest ∧ (v = 0x00#8 ∨ 0x0A ≤ v.toNat) ∧ ∀ i, decode v ≠ .ok i := by
  intro v hv
  refine ⟨State.reset.setPending (.write 0x200#10 v :: []), [], rfl, by revert v; decide, fun i => ?_⟩
  revert v
  cases i <;> decide

/-- Every command completes from reset: the hypothesis of every statement about a command's next state. -/
theorem witness_exec_next : ∀ i : Instr, ∃ s t : State, exec i s = .next t := by
  intro i
  obtain ⟨t, ht, -⟩ := exec_effect i State.reset
  exact ⟨_, t, ht⟩

/-- Two different states that agree on what a command reads: IN differs only at IN_LEN and above. -/
theorem witness_CommandsReadOnlyTheirTableRow : ∀ i : Instr, ∃ s s' t t' : State, s ≠ s' ∧
    (∀ e ∈ tableReads i, e.agree s s') ∧ exec i s = .next t ∧ exec i s' = .next t' := by
  intro i
  obtain ⟨t, ht, -⟩ := exec_effect i State.reset
  obtain ⟨t', ht', -⟩ := exec_effect i (State.reset.setInByte 7 0x55#8)
  refine ⟨_, _, t, t', by decide, fun e he => ?_, ht, ht'⟩
  revert he
  cases e <;> intro he <;> first | rfl | (intro j; rfl) | (intro j hj; exact absurd hj (by simp))

/-- The first index that is stale, and the last of the buffer. -/
theorem witness_StaleInputBytesAreIgnored : ∀ k ∈ [4, 255], ∃ s t : State, exec .chkWake s = .next t ∧
    s.inLen.toNat ≤ k := by
  intro k hk
  obtain ⟨t, ht, -⟩ := exec_effect .chkWake zeroPacket
  exact ⟨_, t, ht, by revert k; decide⟩

/-- R83's hypotheses at their edges: a mismatch at N = 2 and N = 7 (V20, S6d) and in a wake response (V45); a wrong length
byte with a matching CRC and with a bad one (V32, S6g; V48, V48 with a bad CRC, V32 again for its status byte); a
header of 4 bytes that declares 3, 4 and 7. -/
theorem witness_MismatchesAreErrorsOnlyWhereListed :
    (∀ s ∈ [withInput [0x01#8, 0x00#8], badPacket], 2 ≤ s.inLen.toNat ∧
      crc16 (s.inSlice 0 (s.inLen.toNat - 2)) ≠ s.trailer s.inLen.toNat) ∧
    4 ≤ badPacket.inLen.toNat ∧
    (∀ s ∈ [withInput [0x04#8, 0x11#8, 0x43#8, 0x33#8]], s.inLen.toNat = 4 ∧ crc16 (s.inSlice 0 2) ≠ s.trailer 4) ∧
    (∀ s ∈ [zeroPacket, withInput [0x09#8, 0x01#8, 0x23#8, 0x45#8, 0x67#8, 0x31#8, 0x6C#8]],
      4 ≤ s.inLen.toNat ∧ s.inByte 0 ≠ s.inLen) ∧
    (∀ s ∈ [withInput [0x05#8, 0x11#8, 0x3A#8, 0xC3#8], withInput [0x05#8, 0x11#8, 0x3A#8, 0xC2#8], zeroPacket],
      s.inLen.toNat = 4 ∧ s.inByte 0 ≠ 0x04#8) ∧
    ∀ d ∈ [0x03#8, 0x04#8, 0x07#8], 4 ≤ (zeroPacket.setInByte 0 d).inLen.toNat := by decide +kernel

/-- The lengths at which the clobber rules R96 and R97 change clause. -/
theorem witness_ClobberConditions :
    ¬2 ≤ (withZeros 1#8).inLen.toNat ∧ 2 ≤ (withZeros 2#8).inLen.toNat ∧ ¬4 ≤ (withZeros 3#8).inLen.toNat ∧
    4 ≤ (withZeros 4#8).inLen.toNat ∧ (withZeros 4#8).inLen.toNat = 4 ∧ (withZeros 5#8).inLen.toNat ≠ 4 ∧
    ¬1 ≤ (withZeros 0#8).inLen.toNat ∧ (withZeros 251#8).inLen.toNat ≤ 251 ∧ ¬(withZeros 252#8).inLen.toNat ≤ 251 := by
  decide

/-- Addresses at both ends of every row of R32, for the statements about reads and writes. -/
def mapEdges : List Addr :=
  [0x000#10, 0x0FF#10, 0x100#10, 0x1FF#10, 0x200#10, 0x201#10, 0x202#10, 0x203#10, 0x204#10, 0x205#10, 0x206#10, 0x207#10,
   0x208#10, 0x209#10, 0x20A#10, 0x20B#10, 0x20C#10, 0x20D#10, 0x20E#10, 0x20F#10, 0x210#10, 0x3FF#10]

theorem witness_HostReadsFollowTheAddressMap : ∀ a ∈ mapEdges, ∃ (s : State) (rest : List HostMove),
    s.pending = .read a :: rest := fun a _ => ⟨State.reset.setPending [.read a], [], rfl⟩

theorem witness_HostWritesFollowTheAddressMap : ∀ a ∈ mapEdges, ∃ (s : State) (v : Byte) (rest : List HostMove),
    s.inBuf.wf = true ∧ s.pending = .write a v :: rest :=
  fun a _ => ⟨goodPacket.setPending [.write a 0x00#8], 0x00#8, [], by show goodPacket.inBuf.wf = true; decide +kernel, rfl⟩

/-- Each clause of the map at its edges: IN, OUT, register or reserved. -/
theorem witness_AddressMapClauses : mapEdges.map placeOf =
    [.inByte 0, .inByte 255, .outByte 0, .outByte 255, .reg .cmd, .reg .status, .reg .errcode, .reg .inLen, .reg .outLen,
     .reg .prefixReg, .reg .data, .reserved, .reg .crcLo, .reg .crcHi, .reg .claimLo, .reg .claimHi, .reg .rxLen,
     .reg .remain, .reserved, .reserved, .reserved, .reserved] := by decide +kernel

theorem witness_ReadsReturnTheMostRecentWrite : ∀ a ∈ [0x000#10, 0x0FF#10, 0x100#10, 0x201#10, 0x20B#10, 0x3FF#10],
    ∃ (s : State) (v : Byte) (rest : List HostMove), s.inBuf.wf = true ∧ a ≠ 0x200#10 ∧ s.pending = .write a v :: rest := by
  intro a ha
  exact ⟨goodPacket.setPending [.write a 0x00#8], 0x00#8, [], by show goodPacket.inBuf.wf = true; decide +kernel,
    by revert a; decide, rfl⟩

/-- Two states that read alike at every address and differ in the host's side. -/
theorem witness_NoStateIsHiddenFromTheHost : ∃ s t : State, s ≠ t ∧ s.inBuf.wf = true ∧ s.outBuf.wf = true ∧
    t.inBuf.wf = true ∧ t.outBuf.wf = true ∧ ∀ a : Addr, hostRead s a = hostRead t a := by
  refine ⟨State.reset, State.reset.observe 0x01#8, by decide, rfl, rfl, rfl, rfl, fun a => ?_⟩
  rcases placeOf_cases a with ⟨-, hp⟩ | ⟨-, -, hp⟩ | ⟨r, -, hp⟩ | ⟨-, -, hp⟩ <;> simp only [hostRead, hp]
  · rfl
  · rfl
  · cases r <;> rfl

theorem witness_LoadPutsItsBytesInTheInput : ∀ n ∈ [0, 255], ∃ (s : State) (bs : List Byte) (rest : List HostMove),
    s.inBuf.wf = true ∧ bs.length = n ∧ (Pseudo.load bs).wf = true ∧ s.pending = expand (.load bs) ++ rest := by
  intro n hn
  exact ⟨goodPacket.setPending _, List.replicate n 0x5A#8, [], by show goodPacket.inBuf.wf = true; decide +kernel, by simp, by
    simp only [Pseudo.wf, List.length_replicate]; revert n; decide, rfl⟩

theorem witness_SixteenBitRegistersTravelLowByteFirst : ∃ (s u : State) (c : Word) (rest : List HostMove),
    s.pending = expand (.setClaim c) ++ rest ∧ u.pending = expand .rdCrc ++ rest :=
  ⟨State.reset.setPending _, State.reset.setPending _, 0x4333#16, [], rfl, rfl⟩

theorem witness_RdOutReturnsTheOutput : ∀ k ∈ [0, 256], ∃ (s : State) (rest : List HostMove),
    (Pseudo.rdOut k).wf = true ∧ s.pending = expand (.rdOut k) ++ rest := by
  intro k hk
  exact ⟨State.reset.setPending _, [], by revert k; decide, rfl⟩

theorem witness_ResetSetsEveryElement : ∃ (s : State) (rest : List HostMove), s ≠ State.reset ∧
    s.pending = .reset :: rest := ⟨goodPacket.setPending [.reset], [], by decide +kernel, rfl⟩

theorem witness_IdleBlockKeepsItsState : ∃ s : State, s.pending = [] := ⟨goodPacket, rfl⟩

theorem witness_RunsObserveOneBytePerRead : ∃ (s : State) (ms rest : List HostMove), accessesOnly ms ∧ readCount ms = 2 ∧
    s.pending = ms ++ rest :=
  ⟨State.reset.setPending _, [.read 0x205#10, .write 0x200#10 0x01#8, .read 0x200#10], [.reset],
    by unfold accessesOnly; decide, rfl, rfl⟩

/-- A state with a payload in OUT meets the OUT invariant and the block's invariant, and steps. -/
theorem witness_StepKeepsTheInvariant : ∃ s t : State, s.outLen ≠ 0x00#8 ∧ outTailZero s ∧ s.Inv ∧ step s = .next t := by
  let s := (State.reset.setOut [0x11#8]).setPending [.write 0x200#10 0x07#8]
  have htail : outTailZero s := by
    intro i h _
    have hi : 1 ≤ i := h
    refine (Memory.read_ofBytes [0x11#8] (by decide) i).trans ?_
    rw [List.getD_eq_default _ _ (by simpa using hi)]
  obtain ⟨t, ht, -⟩ := step_effect s
  exact ⟨s, t, by decide, htail, ⟨by decide, by decide, by decide, by decide, by decide, by decide, htail⟩, ht⟩

end Sys2Proof.Machine
end

/-! SUPPORT. The family 20_memory.md: the host's reads (R33) and writes (R34), row by row of R32's address map. -/

namespace Sys2Proof.Machine

/-! ### The bytes of a 16-bit register as numbers (R7) -/

theorem toNat_lowByte (c : Word) : (lowByte c).toNat = c.toNat % 256 := by
  simp [lowByte]

theorem toNat_highByte (c : Word) : (highByte c).toNat = c.toNat / 256 := by
  have hc := c.isLt
  simp only [highByte, BitVec.extractLsb'_toNat, Nat.shiftRight_eq_div_pow]
  omega

theorem lowByte_eq_ofNat (c : Word) : lowByte c = BitVec.ofNat 8 (c.toNat % 256) := by
  rw [← toNat_lowByte, BitVec.ofNat_toNat, BitVec.setWidth_eq]

theorem highByte_eq_ofNat (c : Word) : highByte c = BitVec.ofNat 8 (c.toNat / 256) := by
  rw [← toNat_highByte, BitVec.ofNat_toNat, BitVec.setWidth_eq]

/-- A host write of CLAIM's low byte keeps its high byte (R34). -/
theorem toNat_setClaimLow (s : State) (v : Byte) :
    (s.setClaimLow v).claim.toNat = 256 * (s.claim.toNat / 256) + v.toNat := by
  rw [State.setClaimLow_eq, State.setClaim_claim, toNat_leWord, toNat_highByte, Nat.add_comm]

/-- A host write of CLAIM's high byte keeps its low byte (R34). -/
theorem toNat_setClaimHigh (s : State) (v : Byte) :
    (s.setClaimHigh v).claim.toNat = 256 * v.toNat + s.claim.toNat % 256 := by
  rw [State.setClaimHigh_eq, State.setClaim_claim, toNat_leWord, toNat_lowByte, Nat.add_comm]

/-! ### What each state operation keeps, as frames over the elements of R13 -/

section frames

variable {w : List Element} {s t : State}

theorem sameExcept_refl (w : List Element) (s : State) : sameExcept w s s := by
  intro e _
  cases e <;> simp [Element.same]

/-- The host's remaining moves are no element of the block. -/
theorem sameExcept_setPending_left {ms : List HostMove} : sameExcept w (s.setPending ms) t ↔ sameExcept w s t :=
  Iff.rfl

/-- What the host has read is no element of the block. -/
theorem sameExcept_observe_right {b : Byte} : sameExcept w s (t.observe b) ↔ sameExcept w s t :=
  Iff.rfl

theorem sameExcept_setInByte (s : State) (i : Nat) (v : Byte) : sameExcept [.inBuf] s (s.setInByte i v) := by
  intro e he
  cases e <;> simp_all [Element.same]

theorem sameExcept_setInLen (s : State) (v : Byte) : sameExcept [.inLen] s (s.setInLen v) := by
  intro e he
  cases e <;> simp_all [Element.same]

theorem sameExcept_setPrefixReg (s : State) (v : Byte) : sameExcept [.prefixReg] s (s.setPrefixReg v) := by
  intro e he
  cases e <;> simp_all [Element.same]

theorem sameExcept_setData (s : State) (v : Byte) : sameExcept [.data] s (s.setData v) := by
  intro e he
  cases e <;> simp_all [Element.same]

theorem sameExcept_setClaim (s : State) (k : Word) : sameExcept [.claim] s (s.setClaim k) := by
  intro e he
  cases e <;> simp_all [Element.same]

theorem sameExcept_endCommand (s : State) (v : Byte) (e : ErrorCode) (m l : Bool) :
    sameExcept completionWrites s (s.endCommand v e m l) := by
  intro el hel
  cases el <;> simp_all [Element.same, completionWrites]

end frames

/-! ### The windows and the reserved rows of the map (R32) -/

section windows

variable (s : State) {a : Addr} (v : Byte)

theorem hostRead_in (h : a.toNat ≤ 0x0FF) : hostRead s a = s.inBuf.read a.toNat := by
  simp only [hostRead, placeOf_in h]

theorem hostRead_out (h : 0x100 ≤ a.toNat) (h' : a.toNat ≤ 0x1FF) :
    hostRead s a = s.outBuf.read (a.toNat - 0x100) := by
  simp only [hostRead, placeOf_out h h']

theorem hostRead_reserved (h : placeOf a = .reserved) : hostRead s a = 0x00#8 := by
  simp only [hostRead, h]

theorem hostWrite_in (h : a.toNat ≤ 0x0FF) : hostWrite s a v = .next (s.setInByte a.toNat v) := by
  simp only [hostWrite, placeOf_in h]

/-- A write to OUT or to a reserved address is ignored (D9). -/
theorem hostWrite_of_ne_regAddr (h : 0x100 ≤ a.toNat) (hne : ∀ r, a ≠ regAddr r) : hostWrite s a v = .next s := by
  rcases placeOf_cases a with ⟨hin, -⟩ | ⟨-, -, hp⟩ | ⟨r, hr, -⟩ | ⟨-, -, hp⟩
  · omega
  · simp only [hostWrite, hp]
  · exact absurd hr (hne r)
  · simp only [hostWrite, hp]

end windows

/-- An address that is no register's is none of the literals of R32's register rows. -/
theorem ne_registerRows {a : Addr} (hne : ∀ r, a ≠ regAddr r) :
    a ≠ 0x200#10 ∧ a ≠ 0x201#10 ∧ a ≠ 0x202#10 ∧ a ≠ 0x203#10 ∧ a ≠ 0x204#10 ∧ a ≠ 0x205#10 ∧ a ≠ 0x206#10 ∧
      a ≠ 0x208#10 ∧ a ≠ 0x209#10 ∧ a ≠ 0x20A#10 ∧ a ≠ 0x20B#10 ∧ a ≠ 0x20C#10 ∧ a ≠ 0x20D#10 :=
  ⟨hne .cmd, hne .status, hne .errcode, hne .inLen, hne .outLen, hne .prefixReg, hne .data, hne .crcLo, hne .crcHi,
    hne .claimLo, hne .claimHi, hne .rxLen, hne .remain⟩

/-- A write of CMD (R46, R48): LASTCMD is the code, a legal code runs its command, and an illegal one changes the completion
registers alone. -/
theorem startCommand_spec (v : Byte) (s : State) :
    ∃ t, startCommand v s = .next t ∧ sameHost s t ∧ t.lastcmd = v ∧ (∀ i, decode v = .ok i → exec i s = .next t) ∧
      ((∀ i, decode v ≠ .ok i) → completedWith t v 0x05#8 0x01#8 ∧ sameExcept completionWrites s t) := by
  obtain ⟨t, ht, heff⟩ := startCommand_effect v s
  refine ⟨t, ht, heff.host, heff.lastcmd, fun i hi => (startCommand_legal hi).symm.trans ht, fun hnone => ?_⟩
  have herr : decode v = .error (.illegalCode v) :=
    (decode_cases v).resolve_left fun ⟨i, hi, _⟩ => hnone i hi
  obtain rfl := Host.Outcome.next.inj ((startCommand_illegal herr).symm.trans ht)
  exact ⟨⟨rfl, rfl, rfl⟩, sameExcept_endCommand s v _ _ _⟩

/-- Settles O37: the rows of R32's "host read" column, by what the address names. -/
theorem hostReadsFollowTheAddressMap : Obligations.HostReadsFollowTheAddressMap := by
  unfold Obligations.HostReadsFollowTheAddressMap
  intro s a rest hp
  have hframe : sameExcept [] s ((s.setPending rest).observe (hostRead (s.setPending rest) a)) :=
    sameExcept_observe_right.mpr (sameExcept_setPending_left.mp (sameExcept_refl [] _))
  refine ⟨_, step_read hp, hframe, rfl, ?_⟩
  rw [State.observe_observed]
  refine congrArg (fun b => s.observed ++ [b]) ?_
  rcases placeOf_cases a with ⟨hin, -⟩ | ⟨hlo, hhi, -⟩ | ⟨r, rfl, -⟩ | ⟨hlo, hne, hplace⟩
  · rw [if_pos hin]
    exact hostRead_in _ hin
  · rw [if_neg (by omega), if_pos hhi]
    exact hostRead_out _ hlo hhi
  · rw [hostRead_reg]
    cases r with
    | crcLo => exact lowByte_eq_ofNat s.crc
    | crcHi => exact highByte_eq_ofNat s.crc
    | claimLo => exact lowByte_eq_ofNat s.claim
    | claimHi => exact highByte_eq_ofNat s.claim
    | cmd | status | errcode | inLen | outLen | prefixReg | data | rxLen | remain => rfl
  · rw [hostRead_reserved _ hplace, if_neg (by omega), if_neg (by omega)]
    simp [ne_registerRows hne]

/-- Settles O38: the rows of R32's "host write" column, by whether the address is in IN, a register's, or neither. -/
theorem hostWritesFollowTheAddressMap : Obligations.HostWritesFollowTheAddressMap := by
  unfold Obligations.HostWritesFollowTheAddressMap
  intro s a v rest hwf hp
  rw [step_write hp]
  have hignored : sameExcept [] s (s.setPending rest) := sameExcept_setPending_left.mp (sameExcept_refl [] _)
  by_cases hin : a.toNat ≤ 0x0FF
  · refine ⟨_, hostWrite_in _ v hin, rfl, rfl, ?_⟩
    rw [if_pos hin]
    exact ⟨Memory.read_write hwf a.toNat v, sameExcept_setPending_left.mp (sameExcept_setInByte _ a.toNat v)⟩
  by_cases hreg : ∃ r, a = regAddr r
  · obtain ⟨r, rfl⟩ := hreg
    rw [hostWrite_reg]
    cases r with
    | cmd =>
      obtain ⟨t, ht, ⟨hpend, hobs⟩, hrow⟩ := startCommand_spec v (s.setPending rest)
      exact ⟨t, ht, hpend, hobs, hrow⟩
    | inLen => exact ⟨_, rfl, rfl, rfl, rfl, sameExcept_setPending_left.mp (sameExcept_setInLen _ v)⟩
    | prefixReg => exact ⟨_, rfl, rfl, rfl, rfl, sameExcept_setPending_left.mp (sameExcept_setPrefixReg _ v)⟩
    | data => exact ⟨_, rfl, rfl, rfl, rfl, sameExcept_setPending_left.mp (sameExcept_setData _ v)⟩
    | claimLo =>
      exact ⟨_, rfl, rfl, rfl, toNat_setClaimLow s v, sameExcept_setPending_left.mp (sameExcept_setClaim _ _)⟩
    | claimHi =>
      exact ⟨_, rfl, rfl, rfl, toNat_setClaimHigh s v, sameExcept_setPending_left.mp (sameExcept_setClaim _ _)⟩
    | status | errcode | outLen | crcLo | crcHi | rxLen | remain => exact ⟨_, rfl, rfl, rfl, hignored⟩
  · have hne : ∀ r, a ≠ regAddr r := not_exists.mp hreg
    refine ⟨_, hostWrite_of_ne_regAddr _ v (by omega) hne, rfl, rfl, ?_⟩
    rw [if_neg hin]
    simpa [ne_registerRows hne] using hignored

end Sys2Proof.Machine

/-! SUPPORT. The family 30_encoding.md: the codes that are no command (R48). -/

namespace Sys2Proof.Machine

theorem decode_encode (i : Instr) : decode (encode i) = .ok i := by
  cases i <;> rfl

/-- The decoder answers with no command exactly for the bytes that are no command's code (R47). -/
theorem decode_ne_ok_iff (v : Byte) : (∀ i, decode v ≠ .ok i) ↔ ∀ i, encode i ≠ v := by
  constructor
  · rintro hnone i rfl
    exact hnone i (decode_encode i)
  · intro hcode i hi
    rcases decode_cases v with ⟨j, -, hj⟩ | herr
    · exact hcode j hj
    · rw [herr] at hi
      cases hi

theorem encode_ne_zero (i : Instr) : encode i ≠ 0x00#8 := by
  cases i <;> decide

theorem toNat_encode_lt (i : Instr) : (encode i).toNat < 0x0A := by
  cases i <;> decide

/-- R47's codes are consecutive: every byte from 0x01 to 0x09 is a command's code. -/
theorem exists_encode_eq {v : Byte} (hpos : v ≠ 0x00#8) (hlt : v.toNat < 0x0A) : ∃ i, encode i = v := by
  have hrow : ∀ n < 0x0A, n ≠ 0 → ∃ row ∈ opcodeTable, encode row.2 = BitVec.ofNat 8 n := by decide
  have hn : v.toNat ≠ 0 := fun h => hpos (BitVec.eq_of_toNat_eq h)
  obtain ⟨row, -, hcode⟩ := hrow v.toNat hlt hn
  exact ⟨row.2, by rw [hcode, BitVec.ofNat_toNat, BitVec.setWidth_eq]⟩

/-- R48: the illegal codes are 0x00 and those from 0x0A on. -/
theorem decode_ne_ok_iff_range (v : Byte) : (∀ i, decode v ≠ .ok i) ↔ v = 0x00#8 ∨ 0x0A ≤ v.toNat := by
  rw [decode_ne_ok_iff]
  constructor
  · intro hcode
    by_contra hlegal
    obtain ⟨hpos, hlt⟩ := not_or.mp hlegal
    obtain ⟨i, hi⟩ := exists_encode_eq hpos (Nat.lt_of_not_le hlt)
    exact hcode i hi
  · rintro (rfl | hge) i
    · exact encode_ne_zero i
    · rintro rfl
      exact absurd (toNat_encode_lt i) (Nat.not_lt.mpr hge)

/-- Settles O27: the illegal set from the codes the commands have, the step from what a CMD write can do. -/
theorem illegalCodesRaiseIllegalCommand : Obligations.IllegalCodesRaiseIllegalCommand := by
  unfold Obligations.IllegalCodesRaiseIllegalCommand
  refine ⟨decode_ne_ok_iff_range, by decide +kernel, fun s v rest hp hill => ?_⟩
  have hstep : step s = startCommand v (s.setPending rest) := (step_write hp).trans (hostWrite_reg .cmd v)
  obtain ⟨t, ht, ⟨hpend, hobs⟩, -, -, hillegal⟩ := startCommand_spec v (s.setPending rest)
  obtain ⟨hdone, hframe⟩ := hillegal ((decode_ne_ok_iff_range v).mpr hill)
  exact ⟨t, hstep.trans ht, hdone, hpend, hobs, sameExcept_setPending_left.mp hframe⟩

end Sys2Proof.Machine

/-! SUPPORT. The family 40_crc.md: the CRC function (R59, R62) and the commands CRC_CLR, CRC_BUF, CRC_CMP and VAL_TRAILER
(R64, R66 to R68). -/

namespace Sys2Proof.Machine

/-! ### The register step as arithmetic (R59) -/

/-- The register's top bit is set from 0x8000 on. -/
theorem getLsbD_top_eq_decide (c : Word) : c.getLsbD 15 = decide (0x8000 ≤ c.toNat) :=
  (BitVec.msb_eq_getLsbD_last c).symm.trans (BitVec.msb_eq_decide c)

/-- The register's shift doubles it modulo 2^16. -/
theorem shiftLeft_one_eq_ofNat (c : Word) : c <<< 1 = BitVec.ofNat 16 (2 * c.toNat) := by
  apply BitVec.eq_of_toNat_eq
  rw [BitVec.toNat_shiftLeft, BitVec.toNat_ofNat, Nat.shiftLeft_eq, Nat.mul_comm, Nat.pow_one]

theorem crcBit_eq_arith (c : Word) (d : Bool) :
    crcBit c d = if d != decide (0x8000 ≤ c.toNat) then BitVec.ofNat 16 (2 * c.toNat) ^^^ 0x8005#16
      else BitVec.ofNat 16 (2 * c.toNat) := by
  rw [crcBit, getLsbD_top_eq_decide, shiftLeft_one_eq_ofNat]
  rfl

/-- Settles O1: the fold over the data bits is the fold over their indices, and one bit is `crcBit_eq_arith`. -/
theorem crcStepIsTheBitSerialRegister : Obligations.CrcStepIsTheBitSerialRegister := by
  unfold Obligations.CrcStepIsTheBitSerialRegister
  refine ⟨fun c b => ?_, by decide +kernel, by decide +kernel⟩
  rw [crcStep, dataBits, List.foldl_map]
  simp only [crcBit_eq_arith, BitVec.testBit_toNat]

/-- Settles O2: the fold over no bytes is CRC_INIT. -/
theorem emptyInputHasCrcZero : Obligations.EmptyInputHasCrcZero := by
  unfold Obligations.EmptyInputHasCrcZero
  rfl

/-- With IN_LEN = 0 the CRC of the input is that of no bytes (R62). -/
theorem crc16_input_of_inLen_zero {s : State} (h : s.inLen = 0x00#8) :
    crc16 (s.inSlice 0 s.inLen.toNat) = 0x0000#16 := by
  have hslice : s.inSlice 0 s.inLen.toNat = [] := List.length_eq_zero_iff.mp (by simp [h])
  rw [hslice]
  exact emptyInputHasCrcZero

/-! ### Frames of the CRC commands: what each write keeps, composed -/

section frames

variable {w w' : List Element} {s t u : State}

theorem Element.same_trans {e : Element} (hst : e.same s t) (htu : e.same t u) : e.same s u := by
  cases e with
  | inBuf | outBuf => exact fun i => (htu i).trans (hst i)
  | _ => exact Eq.trans htu hst

theorem frameExcept_trans (hst : frameExcept w s t) (htu : frameExcept w' t u) : frameExcept (w ++ w') s u := by
  obtain ⟨hst, hpend, hobs⟩ := hst
  obtain ⟨htu, hpend', hobs'⟩ := htu
  refine ⟨fun e he => ?_, hpend'.trans hpend, hobs'.trans hobs⟩
  obtain ⟨hw, hw'⟩ := not_or.mp (mt List.mem_append.mpr he)
  exact Element.same_trans (hst e hw) (htu e hw')

theorem frameExcept_setCrc (s : State) (c : Word) : frameExcept [.crc] s (s.setCrc c) := by
  refine ⟨fun e he => ?_, rfl, rfl⟩
  cases e <;> simp_all [Element.same]

theorem frameExcept_setClaim (s : State) (k : Word) : frameExcept [.claim] s (s.setClaim k) :=
  ⟨sameExcept_setClaim s k, rfl, rfl⟩

theorem frameExcept_endCommand (s : State) (v : Byte) (e : ErrorCode) (m l : Bool) :
    frameExcept completionWrites s (s.endCommand v e m l) :=
  ⟨sameExcept_endCommand s v e m l, rfl, rfl⟩

/-- A command that writes CRC and completes keeps everything else. -/
theorem frameExcept_setCrc_endCommand (s : State) (c : Word) (v : Byte) (e : ErrorCode) (m l : Bool) :
    frameExcept (.crc :: completionWrites) s ((s.setCrc c).endCommand v e m l) :=
  frameExcept_trans (frameExcept_setCrc s c) (frameExcept_endCommand _ v e m l)

/-- A command that writes CRC and CLAIM and completes keeps everything else. -/
theorem frameExcept_withCrcs_endCommand (s : State) (n : Nat) (v : Byte) (e : ErrorCode) (m l : Bool) :
    frameExcept (.crc :: .claim :: completionWrites) s ((withCrcs s n).endCommand v e m l) :=
  frameExcept_trans (frameExcept_trans (frameExcept_setCrc s _) (frameExcept_setClaim _ _))
    (frameExcept_endCommand _ v e m l)

end frames

/-! ### The commands (R64, R66 to R68) -/

/-- STATUS after a command without error that only compares (R67, R68): MATCH is the whole of it. -/
theorem statusByte_beq (c k : Word) : statusByte .none (c == k) false = if c = k then 0x02#8 else 0x00#8 := by
  simp [statusByte_none]

theorem statusByte_beq_eq_match_iff (c k : Word) : statusByte .none (c == k) false = 0x02#8 ↔ c = k := by
  simp [statusByte_beq]

/-- Settles O8: the completion after one write of CRC. -/
theorem crcClrClearsTheAccumulator : Obligations.CrcClrClearsTheAccumulator := by
  unfold Obligations.CrcClrClearsTheAccumulator
  intro s
  exact ⟨_, exec_crcClr s, rfl, ⟨rfl, rfl, rfl⟩, frameExcept_setCrc_endCommand ..⟩

/-- Settles O10: the completion after one write of CRC, and R62 for N = 0. -/
theorem crcBufComputesTheCrcOfTheInput : Obligations.CrcBufComputesTheCrcOfTheInput := by
  unfold Obligations.CrcBufComputesTheCrcOfTheInput
  intro s
  exact ⟨_, exec_crcBuf s, rfl, ⟨rfl, rfl, rfl⟩, frameExcept_setCrc_endCommand .., crc16_input_of_inLen_zero⟩

/-- Settles O11: STATUS is the verdict of the comparison, and for N = 0 the CRC compared is 0x0000. -/
theorem crcCmpReportsWhetherTheClaimMatches : Obligations.CrcCmpReportsWhetherTheClaimMatches := by
  unfold Obligations.CrcCmpReportsWhetherTheClaimMatches
  intro s
  refine ⟨_, exec_crcCmp s, rfl, ⟨rfl, rfl, statusByte_beq _ _⟩, frameExcept_setCrc_endCommand .., fun h => ?_⟩
  calc
    _ ↔ crc16 (s.inSlice 0 s.inLen.toNat) = s.claim := statusByte_beq_eq_match_iff _ _
    _ ↔ s.claim = 0x0000#16 := by rw [crc16_input_of_inLen_zero h, eq_comm]

/-- Settles O12: the two branches of R68, by whether IN holds a trailer. -/
theorem valTrailerChecksTheLastTwoBytes : Obligations.ValTrailerChecksTheLastTwoBytes := by
  unfold Obligations.ValTrailerChecksTheLastTwoBytes
  intro s
  by_cases hlen : s.inLen.toNat < 2
  · refine ⟨_, exec_valTrailer_short hlen, ?_⟩
    rw [if_pos hlen]
    exact ⟨⟨rfl, rfl, rfl⟩, frameExcept_endCommand ..⟩
  · refine ⟨_, exec_valTrailer_long (Nat.le_of_not_lt hlen), ?_⟩
    rw [if_neg hlen]
    exact ⟨rfl, toNat_leWord _ _, ⟨rfl, rfl, statusByte_beq _ _⟩, frameExcept_withCrcs_endCommand ..⟩

end Sys2Proof.Machine

/-! SUPPORT. The family 41_frame.md: the packet commands FRAME_CMD, VAL_RESP, HDR_EXTRACT and CHK_WAKE (R73 to R76). -/

namespace Sys2Proof.Machine

/-! ### Frames of the packet commands: what each write keeps, composed -/

section frames

theorem frameExcept_setRxLen (s : State) (d : Byte) : frameExcept [.rxLen] s (s.setRxLen d) := by
  refine ⟨fun e he => ?_, rfl, rfl⟩
  cases e <;> simp_all [Element.same]

theorem frameExcept_setRemain (s : State) (r : Byte) : frameExcept [.remain] s (s.setRemain r) := by
  refine ⟨fun e he => ?_, rfl, rfl⟩
  cases e <;> simp_all [Element.same]

theorem frameExcept_setOut (s : State) (bs : List Byte) : frameExcept [.outBuf, .outLen] s (s.setOut bs) := by
  refine ⟨fun e he => ?_, rfl, rfl⟩
  cases e <;> simp_all [Element.same]

theorem frameExcept_extracted (s : State) (n : Nat) : frameExcept [.crc, .claim, .rxLen] s (extracted s n) :=
  frameExcept_trans (frameExcept_trans (frameExcept_setCrc s _) (frameExcept_setClaim _ _)) (frameExcept_setRxLen _ _)

variable (s : State) (v : Byte) (e : ErrorCode) (m l : Bool)

/-- A command that rewrites OUT and completes keeps everything else. -/
theorem frameExcept_setOut_endCommand (bs : List Byte) :
    frameExcept (.outBuf :: .outLen :: completionWrites) s ((s.setOut bs).endCommand v e m l) :=
  frameExcept_trans (frameExcept_setOut s bs) (frameExcept_endCommand _ v e m l)

/-- A command that writes OUT and CRC, in either order, and completes keeps everything else. -/
theorem frameExcept_setOut_setCrc_endCommand (bs : List Byte) (c : Word) :
    frameExcept (.crc :: .outBuf :: .outLen :: completionWrites) s (((s.setOut bs).setCrc c).endCommand v e m l) := by
  have hcomm : (s.setOut bs).setCrc c = (s.setCrc c).setOut bs := rfl
  rw [hcomm]
  exact frameExcept_trans (frameExcept_setCrc s c) (frameExcept_setOut_endCommand _ v e m l bs)

/-- A command that writes RX_LEN and REMAIN and completes keeps everything else. -/
theorem frameExcept_lengths_endCommand (d r : Byte) :
    frameExcept (.rxLen :: .remain :: completionWrites) s (((s.setRxLen d).setRemain r).endCommand v e m l) :=
  frameExcept_trans (frameExcept_trans (frameExcept_setRxLen s d) (frameExcept_setRemain _ r))
    (frameExcept_endCommand _ v e m l)

/-- A command that takes a packet's length field and CRCs and completes keeps everything else. -/
theorem frameExcept_extracted_endCommand (n : Nat) :
    frameExcept (.crc :: .claim :: .rxLen :: completionWrites) s ((extracted s n).endCommand v e m l) :=
  frameExcept_trans (frameExcept_extracted s n) (frameExcept_endCommand _ v e m l)

/-- As `frameExcept_extracted_endCommand`, with OUT rewritten. -/
theorem frameExcept_extracted_setOut_endCommand (n : Nat) (bs : List Byte) :
    frameExcept (.crc :: .claim :: .rxLen :: .outBuf :: .outLen :: completionWrites) s
      (((extracted s n).setOut bs).endCommand v e m l) :=
  frameExcept_trans (frameExcept_extracted s n) (frameExcept_setOut_endCommand _ v e m l bs)

end frames

/-! ### What OUT holds (R20, R28) -/

/-- OUT_LEN holds every length up to 255, so OUT holds what it was rewritten with. -/
theorem outHolds_setOut (s : State) {bs : List Byte} (h : bs.length ≤ 255) : outHolds (s.setOut bs) bs := by
  refine ⟨?_, Memory.read_ofBytes bs (Nat.le_succ_of_le h)⟩
  rw [State.setOut_outLen, BitVec.toNat_ofNat]
  omega

/-- The completion does not write OUT. -/
theorem outHolds_endCommand {s : State} {v : Byte} {e : ErrorCode} {m l : Bool} {bs : List Byte} :
    outHolds (s.endCommand v e m l) bs ↔ outHolds s bs :=
  Iff.rfl

theorem outHolds_setCrc {s : State} {c : Word} {bs : List Byte} : outHolds (s.setCrc c) bs ↔ outHolds s bs :=
  Iff.rfl

/-- A command that fails leaves OUT empty (D18). -/
theorem outHolds_nil_endCommand (s : State) (v : Byte) (e : ErrorCode) (m l : Bool) :
    outHolds ((s.setOut []).endCommand v e m l) [] :=
  outHolds_endCommand.mpr (outHolds_setOut s (Nat.zero_le _))

/-! ### Packets built from IN and taken apart (R72) -/

theorem frameCrc_inSlice (s : State) (n : Nat) :
    frameCrc (s.inSlice 0 n) = crc16 (BitVec.ofNat 8 (n + 3) :: s.inSlice 0 n) := by
  rw [frameCrc, frameLength, State.length_inSlice, Nat.sub_zero]

theorem frame_inSlice (p : Byte) (s : State) (n : Nat) :
    frame p (s.inSlice 0 n) = [p, BitVec.ofNat 8 (n + 3)] ++ s.inSlice 0 n ++ leBytes (frameCrc (s.inSlice 0 n)) := by
  rw [frame, frameLength, State.length_inSlice, Nat.sub_zero]

/-- The payload of the packet in IN is the slice between the length byte and the trailer. -/
theorem payload_inSlice (s : State) (n : Nat) : payload (s.inSlice 0 n) = s.inSlice 1 (n - 2) := by
  refine (State.inSlice_eq ?_ fun k hk => ?_).symm
  · simp only [length_payload, State.length_inSlice]
    omega
  · simp [payload, State.getElem_inSlice, Nat.add_comm]

/-! ### STATUS with the length verdict (R17) -/

/-- STATUS after a packet command without error: MATCH, and LEN_OK exactly when the length byte is right. -/
theorem statusByte_none_lenOk (d n : Byte) :
    statusByte .none true (d.toNat == n.toNat) = if d = n then 0x06#8 else 0x02#8 := by
  simp [statusByte_none, BitVec.toNat_inj]

/-- STATUS after an error of a packet command: LEN_OK exactly when the length byte is right. -/
theorem statusByte_error_lenOk {e : ErrorCode} (he : e ≠ .none) (m : Bool) (d n : Byte) :
    statusByte e m (d.toNat == n.toNat) =
      if d = n then (if m then 0x07#8 else 0x05#8) else (if m then 0x03#8 else 0x01#8) := by
  simp [statusByte_error he, BitVec.toNat_inj]

/-! ### The commands (R73 to R76) -/

/-- Settles O14: the two branches of R73, by whether the body's size fits a frame. -/
theorem frameCmdBuildsTheCommandFrame : Obligations.FrameCmdBuildsTheCommandFrame := by
  unfold Obligations.FrameCmdBuildsTheCommandFrame
  intro s
  by_cases hsize : s.inCount = 0 ∨ 252 ≤ s.inCount
  · exact ⟨_, exec_frameCmd_size hsize, (if_pos hsize).mpr
      ⟨outHolds_nil_endCommand .., ⟨rfl, rfl, rfl⟩, frameExcept_setOut_endCommand ..⟩⟩
  · have hfits : (frame s.prefixReg (s.inSlice 0 s.inCount)).length ≤ 255 := by
      rw [length_frame, State.length_inSlice]
      omega
    have hout := outHolds_setOut s hfits
    rw [exec_frameCmd_frame (by omega) (by omega)]
    rw [frame_inSlice, frameCrc_inSlice] at hout ⊢
    exact ⟨_, rfl, (if_neg hsize).mpr ⟨rfl, outHolds_endCommand.mpr (outHolds_setCrc.mpr hout), ⟨rfl, rfl, rfl⟩,
      frameExcept_setOut_setCrc_endCommand ..⟩⟩

/-- Settles O15: the three branches of R74, by whether IN holds a packet and whether its trailer is the CRC. -/
theorem valRespValidatesAndExtractsThePayload : Obligations.ValRespValidatesAndExtractsThePayload := by
  unfold Obligations.ValRespValidatesAndExtractsThePayload
  intro s
  rcases Nat.lt_or_ge s.inCount 4 with hshort | hlong
  · exact ⟨_, exec_valResp_short hshort, (if_pos hshort).mpr
      ⟨outHolds_nil_endCommand .., ⟨rfl, rfl, rfl⟩, frameExcept_setOut_endCommand ..⟩⟩
  have hN : ¬s.inCount < 4 := Nat.not_lt.mpr hlong
  by_cases hcrc : packetCrc s s.inCount = s.trailer s.inCount
  · have hfits : (s.inSlice 1 (s.inCount - 2)).length ≤ 255 := by
      have hlt : s.inCount < 256 := s.inLen.isLt
      rw [State.length_inSlice]
      omega
    rw [exec_valResp_match hlong hcrc, payload_inSlice]
    exact ⟨_, rfl, (if_neg hN).mpr ⟨rfl, toNat_leWord _ _, rfl, frameExcept_extracted_setOut_endCommand ..,
      (if_pos hcrc).mpr ⟨outHolds_endCommand.mpr (outHolds_setOut _ hfits), rfl, rfl, statusByte_none_lenOk _ _⟩⟩⟩
  · exact ⟨_, exec_valResp_mismatch hlong hcrc, (if_neg hN).mpr
      ⟨rfl, toNat_leWord _ _, rfl, frameExcept_extracted_setOut_endCommand ..,
        (if_neg hcrc).mpr ⟨outHolds_nil_endCommand .., rfl, rfl, statusByte_error_lenOk (by decide) false _ _⟩⟩⟩

/-- Settles O16: the three branches of R75, by whether IN holds a header and whether the declared length covers it. -/
theorem hdrExtractReadsTheDeclaredLength : Obligations.HdrExtractReadsTheDeclaredLength := by
  unfold Obligations.HdrExtractReadsTheDeclaredLength
  intro s
  rcases Nat.lt_or_ge s.inCount 4 with hshort | hlong
  · exact ⟨_, exec_hdrExtract_short hshort, (if_pos hshort).mpr ⟨⟨rfl, rfl, rfl⟩, frameExcept_endCommand ..⟩⟩
  have hN : ¬s.inCount < 4 := Nat.not_lt.mpr hlong
  rcases Nat.lt_or_ge (s.inByte 0).toNat 4 with hsmall | hlen
  · exact ⟨_, exec_hdrExtract_small hlong hsmall, (if_neg hN).mpr
      ⟨rfl, frameExcept_lengths_endCommand .., (if_pos hsmall).mpr ⟨rfl, rfl, rfl, rfl⟩⟩⟩
  · have hremain : (BitVec.ofNat 8 ((s.inByte 0).toNat - 4)).toNat + 4 = (s.inByte 0).toNat := by
      have hlt := (s.inByte 0).isLt
      rw [BitVec.toNat_ofNat]
      omega
    exact ⟨_, exec_hdrExtract_length hlong hlen, (if_neg hN).mpr
      ⟨rfl, frameExcept_lengths_endCommand .., (if_neg (Nat.not_lt.mpr hlen)).mpr ⟨hremain, rfl, rfl, rfl⟩⟩⟩

/-- Settles O17: the four branches of R76, in its order: the size, the CRC, the status byte. -/
theorem chkWakeAcceptsOnlyTheWakeAcknowledge : Obligations.ChkWakeAcceptsOnlyTheWakeAcknowledge := by
  unfold Obligations.ChkWakeAcceptsOnlyTheWakeAcknowledge
  intro s
  by_cases hsize : s.inLen ≠ 0x04#8
  · have hN : s.inCount ≠ 4 := fun h => hsize (BitVec.eq_of_toNat_eq h)
    exact ⟨_, exec_chkWake_size hN, (if_pos hsize).mpr ⟨⟨rfl, rfl, rfl⟩, frameExcept_endCommand ..⟩⟩
  have hN : s.inCount = 4 := congrArg BitVec.toNat (not_not.mp hsize)
  by_cases hcrc : packetCrc s 4 = s.trailer 4
  · by_cases hack : s.inByte 1 = 0x11#8
    · exact ⟨_, exec_chkWake_accepted hN hcrc hack, (if_neg hsize).mpr
        ⟨rfl, toNat_leWord _ _, rfl, frameExcept_extracted_endCommand ..,
          (if_neg (not_not_intro hcrc)).mpr <| (if_neg (not_not_intro hack)).mpr
            ⟨rfl, rfl, statusByte_none_lenOk _ 0x04#8⟩⟩⟩
    · exact ⟨_, exec_chkWake_rejected hN hcrc hack, (if_neg hsize).mpr
        ⟨rfl, toNat_leWord _ _, rfl, frameExcept_extracted_endCommand ..,
          (if_neg (not_not_intro hcrc)).mpr <| (if_pos hack).mpr
            ⟨rfl, rfl, statusByte_error_lenOk (by decide) true _ 0x04#8⟩⟩⟩
  · exact ⟨_, exec_chkWake_mismatch hN hcrc, (if_neg hsize).mpr
      ⟨rfl, toNat_leWord _ _, rfl, frameExcept_extracted_endCommand ..,
        (if_pos hcrc).mpr ⟨rfl, rfl, statusByte_error_lenOk (by decide) false _ 0x04#8⟩⟩⟩

end Sys2Proof.Machine

/-! SUPPORT. The family 60_exceptions.md: the error a command reports (R85), and which mismatches are errors (R83). -/

namespace Sys2Proof.Machine

/-! ### The verdict of each command: ERRCODE as the chain of its checks, and the flags next to it -/

section verdicts

variable (s : State)

/-- A length byte that is not the packet's size is no match of the two numbers LEN_OK compares. -/
theorem toNat_beq_eq_false {d n : Byte} (h : d ≠ n) : (d.toNat == n.toNat) = false :=
  beq_false_of_ne fun heq => h (BitVec.eq_of_toNat_eq heq)

theorem crcCmp_verdict : ∃ t, exec .crcCmp s = .next t ∧ t.errcode = 0x00#8 ∧
    (t.matchFlag = true ↔ crc16 (s.inSlice 0 s.inLen.toNat) = s.claim) := by
  refine ⟨_, exec_crcCmp s, rfl, ?_⟩
  rw [State.endCommand_matchFlag]
  exact beq_iff_eq

/-- MATCH tells equal CRCs as soon as there is a trailer to compare. -/
theorem valTrailer_verdict : ∃ t, exec .valTrailer s = .next t ∧
    t.errcode = (if s.inLen.toNat < 2 then 0x01#8 else 0x00#8) ∧
    (2 ≤ s.inLen.toNat →
      (t.matchFlag = true ↔ crc16 (s.inSlice 0 (s.inLen.toNat - 2)) = s.trailer s.inLen.toNat)) := by
  rcases Nat.lt_or_ge s.inLen.toNat 2 with hshort | hlong
  · exact ⟨_, exec_valTrailer_short hshort, (if_pos hshort).symm, fun hlong => absurd hshort (Nat.not_lt.mpr hlong)⟩
  · refine ⟨_, exec_valTrailer_long hlong, (if_neg (Nat.not_lt.mpr hlong)).symm, fun _ => ?_⟩
    rw [State.endCommand_matchFlag]
    exact beq_iff_eq

theorem frameCmd_verdict : ∃ t, exec .frameCmd s = .next t ∧
    t.errcode = if s.inLen.toNat = 0 ∨ 251 < s.inLen.toNat then 0x03#8 else 0x00#8 := by
  by_cases hsize : s.inLen.toNat = 0 ∨ 251 < s.inLen.toNat
  · exact ⟨_, exec_frameCmd_size hsize, (if_pos hsize).symm⟩
  · obtain ⟨hpos, hmax⟩ := not_or.mp hsize
    exact ⟨_, exec_frameCmd_frame (Nat.pos_of_ne_zero hpos) (Nat.le_of_not_lt hmax), (if_neg hsize).symm⟩

/-- The length byte has no part in ERRCODE, whose chain does not name it; LEN_OK reports it on either verdict. -/
theorem valResp_verdict : ∃ t, exec .valResp s = .next t ∧
    t.errcode = (if s.inLen.toNat < 4 then 0x01#8
      else if crc16 (s.inSlice 0 (s.inLen.toNat - 2)) ≠ s.trailer s.inLen.toNat then 0x02#8 else 0x00#8) ∧
    (4 ≤ s.inLen.toNat → t.lenOkFlag = ((s.inByte 0).toNat == s.inLen.toNat)) := by
  rcases Nat.lt_or_ge s.inLen.toNat 4 with hshort | hlong
  · exact ⟨_, exec_valResp_short hshort, (if_pos hshort).symm, fun hlong => absurd hshort (Nat.not_lt.mpr hlong)⟩
  rw [if_neg (Nat.not_lt.mpr hlong)]
  by_cases hcrc : packetCrc s s.inLen.toNat = s.trailer s.inLen.toNat
  · exact ⟨_, exec_valResp_match hlong hcrc, (if_neg (not_not_intro hcrc)).symm,
      fun _ => State.endCommand_lenOkFlag ..⟩
  · exact ⟨_, exec_valResp_mismatch hlong hcrc, (if_pos hcrc).symm, fun _ => State.endCommand_lenOkFlag ..⟩

theorem hdrExtract_verdict : ∃ t, exec .hdrExtract s = .next t ∧
    t.errcode = if s.inLen.toNat < 4 then 0x01#8 else if (s.inByte 0).toNat < 4 then 0x01#8 else 0x00#8 := by
  rcases Nat.lt_or_ge s.inLen.toNat 4 with hshort | hlong
  · exact ⟨_, exec_hdrExtract_short hshort, (if_pos hshort).symm⟩
  rw [if_neg (Nat.not_lt.mpr hlong)]
  rcases Nat.lt_or_ge (s.inByte 0).toNat 4 with hsmall | hlen
  · exact ⟨_, exec_hdrExtract_small hlong hsmall, (if_pos hsmall).symm⟩
  · exact ⟨_, exec_hdrExtract_length hlong hlen, (if_neg (Nat.not_lt.mpr hlen)).symm⟩

/-- As for VAL_RESP, the length byte is in LEN_OK alone, whichever verdict a packet of the right size gets. -/
theorem chkWake_verdict : ∃ t, exec .chkWake s = .next t ∧
    t.errcode = (if s.inLen.toNat ≠ 4 then 0x01#8
      else if crc16 (s.inSlice 0 2) ≠ s.trailer 4 then 0x02#8
      else if s.inByte 1 ≠ 0x11#8 then 0x04#8 else 0x00#8) ∧
    (s.inLen.toNat = 4 → t.lenOkFlag = ((s.inByte 0).toNat == 4)) := by
  by_cases hN : s.inLen.toNat = 4
  case neg => exact ⟨_, exec_chkWake_size hN, (if_pos hN).symm, fun h => absurd h hN⟩
  rw [if_neg (not_not_intro hN)]
  by_cases hcrc : crc16 (s.inSlice 0 2) = s.trailer 4
  case neg => exact ⟨_, exec_chkWake_mismatch hN hcrc, (if_pos hcrc).symm, fun _ => State.endCommand_lenOkFlag ..⟩
  rw [if_neg (not_not_intro hcrc)]
  by_cases hack : s.inByte 1 = 0x11#8
  · exact ⟨_, exec_chkWake_accepted hN hcrc hack, (if_neg (not_not_intro hack)).symm,
      fun _ => State.endCommand_lenOkFlag ..⟩
  · exact ⟨_, exec_chkWake_rejected hN hcrc hack, (if_pos hack).symm, fun _ => State.endCommand_lenOkFlag ..⟩

/-- R85's last row: an illegal code fails at the CMD write, before any operand is looked at. -/
theorem hostWrite_cmd_illegal_verdict {v : Byte} (h : ∀ i, decode v ≠ .ok i) :
    ∃ t, hostWrite s 0x200#10 v = .next t ∧ t.errcode = 0x05#8 := by
  obtain ⟨t, ht, -, -, -, hillegal⟩ := startCommand_spec v s
  obtain ⟨⟨-, herr, -⟩, -⟩ := hillegal h
  exact ⟨t, (hostWrite_reg .cmd v).trans ht, herr⟩

end verdicts

/-! ### The statements (R83, R85) -/

/-- Settles O33: R85's table, row by row. -/
theorem theFirstFailingCheckIsReported : Obligations.TheFirstFailingCheckIsReported := by
  unfold Obligations.TheFirstFailingCheckIsReported
  intro s
  obtain ⟨tTrailer, hTrailer, errTrailer, -⟩ := valTrailer_verdict s
  obtain ⟨tResp, hResp, errResp, -⟩ := valResp_verdict s
  obtain ⟨tWake, hWake, errWake, -⟩ := chkWake_verdict s
  exact ⟨⟨tTrailer, hTrailer, errTrailer⟩, frameCmd_verdict s, ⟨tResp, hResp, errResp⟩, hdrExtract_verdict s,
    ⟨tWake, hWake, errWake⟩, fun _ => hostWrite_cmd_illegal_verdict s⟩

/-- Settles O34: each command's chain of checks, entered behind its check of the size. -/
theorem mismatchesAreErrorsOnlyWhereListed : Obligations.MismatchesAreErrorsOnlyWhereListed := by
  unfold Obligations.MismatchesAreErrorsOnlyWhereListed
  intro s
  obtain ⟨tTrailer, hTrailer, errTrailer, hmatch⟩ := valTrailer_verdict s
  obtain ⟨tResp, hResp, errResp, lenResp⟩ := valResp_verdict s
  obtain ⟨tHdr, hHdr, errHdr⟩ := hdrExtract_verdict s
  obtain ⟨tWake, hWake, errWake, lenWake⟩ := chkWake_verdict s
  have errResp (hN : 4 ≤ s.inLen.toNat) := errResp.trans (if_neg (Nat.not_lt.mpr hN))
  have errWake (hN : s.inLen.toNat = 4) := errWake.trans (if_neg (not_not_intro hN))
  refine ⟨crcCmp_verdict s, fun hN => ⟨tTrailer, hTrailer, ?_, hmatch hN⟩, fun hN hcrc => ⟨tResp, hResp, ?_⟩,
    fun hN hcrc => ⟨tWake, hWake, ?_⟩, fun hN hlen => ⟨tResp, hResp, ?_, ?_⟩,
    fun hN hlen => ⟨tWake, hWake, ?_, errWake hN⟩, fun hN => ⟨tHdr, hHdr, ?_⟩⟩
  · exact errTrailer.trans (if_neg (Nat.not_lt.mpr hN))
  · exact (errResp hN).trans (if_pos hcrc)
  · exact (errWake hN).trans (if_pos hcrc)
  · exact (lenResp hN).trans (toNat_beq_eq_false hlen)
  · exact (errResp hN).trans (ite_not ..)
  · exact (lenWake hN).trans (toNat_beq_eq_false hlen)
  · exact errHdr.trans (if_neg (Nat.not_lt.mpr hN))

end Sys2Proof.Machine

/-! SUPPORT. The family 70_reset_and_hazards.md: what asserting reset leaves (R93). -/

namespace Sys2Proof.Machine

/-! ### The statement (R93) -/

/-- Settles O48: both states are the reset state up to the moves that wait, and a buffer with no entry reads 0x00. -/
theorem resetSetsEveryElement : Obligations.ResetSetsEveryElement := by
  unfold Obligations.ResetSetsEveryElement
  intro s rest hreset
  refine ⟨State.reset.setPending rest, step_reset hreset, State.setPending_pending .., fun u hu => ?_⟩
  obtain ⟨ms, rfl⟩ : ∃ ms, u = State.reset.setPending ms := by
    rcases List.mem_pair.mp hu with hstep | hpower
    · exact ⟨rest, hstep⟩
    · exact ⟨[], hpower⟩
  simp [unlistedByte]

end Sys2Proof.Machine

/-! SUPPORT. The family of the derived laws: the algebra of the CRC function (R60, R63, R70, R71), round trips (R69, R77
to R81), what commands read, write and report in general (R17, R47, R96, R97, R100), the host's accesses (R35, R38, R44,
R58), and the block's invariant (R29). -/

namespace Sys2Proof.Machine

/-! ### What is stated of a command's answer holds of its next state -/

/-- A statement of the form "the command completes, and then" says how every next state of the command is. -/
theorem holds_of_next {o : Host.Outcome State Fault Refusal} {p : State → Prop} {t : State}
    (hspec : ∃ u, o = .next u ∧ p u) (ht : o = .next t) : p t := by
  obtain ⟨u, hu, hp⟩ := hspec
  exact Host.Outcome.next.inj (hu.symm.trans ht) ▸ hp

/-! ### Bytes that stand in IN -/

/-- N of the rules is IN_LEN as a number (R19). -/
theorem toNat_inLen (s : State) : s.inLen.toNat = s.inCount := rfl

section input
variable {s : State} {n : Nat}

/-- The first bytes of a slice of IN are a shorter slice. -/
theorem take_inSlice (s : State) {k n : Nat} (h : k ≤ n) : (s.inSlice 0 n).take k = s.inSlice 0 k := by
  refine (State.inSlice_eq (by simp [h]) fun j hj => ?_).symm
  rw [List.getElem_take, State.getElem_inSlice]

theorem inByte_of_inSlice {bs : List Byte} (h : s.inSlice 0 n = bs) {k : Nat} (hk : k < bs.length) :
    s.inByte k = bs[k] := by
  subst h
  rw [State.getElem_inSlice, Nat.zero_add]

/-- A packet that stands in IN with `c` as its trailer: the bytes before the trailer, and the claimed CRC (R53). -/
theorem packet_of_inSlice {bs : List Byte} {c : Word} (h : s.inSlice 0 n = bs ++ leBytes c) :
    s.inSlice 0 (n - 2) = bs ∧ s.trailer n = c := by
  have hn : n = bs.length + 2 := by simpa using congrArg List.length h
  subst hn
  constructor
  · rw [Nat.add_sub_cancel, ← take_inSlice s (Nat.le_add_right _ 2), h, List.take_left]
  · have hlo := inByte_of_inSlice h (k := bs.length) (by simp)
    have hhi := inByte_of_inSlice h (k := bs.length + 1) (by simp)
    rw [State.trailer, Nat.add_sub_cancel, Nat.add_sub_assoc (by decide), hlo, hhi]
    simp [leBytes]

end input

/-- A packet whose trailer is the CRC of the bytes before it (R53): VAL_RESP accepts it, and its payload is what stands
between the length byte and the trailer. -/
theorem valResp_of_inSlice {u : State} {d : Byte} {body : List Byte} (hbody : 1 ≤ body.length)
    (h : u.inSlice 0 u.inCount = d :: body ++ leBytes (crc16 (d :: body))) :
    exec .valResp u = .next (((extracted u u.inCount).setOut body).endCommand 0x07#8 .none true
      (d.toNat == u.inCount)) := by
  have hn : u.inCount = body.length + 3 := by simpa using congrArg List.length h
  obtain ⟨hbytes, htrailer⟩ := packet_of_inSlice h
  have hcrc : packetCrc u u.inCount = u.trailer u.inCount := by rw [packetCrc, hbytes, htrailer]
  have hpayload : payload (u.inSlice 0 u.inCount) = body := by
    rw [h]
    simp [payload, leBytes]
  have hd : u.inByte 0 = d := inByte_of_inSlice h (by simp)
  rw [exec_valResp_match (by omega) hcrc, hpayload, hd]

/-! ### Framing and its round trip (R77, R80) -/

/-- The packet a response to a framed body would be: the frame without its first byte (R50). -/
def packetOf (body : List Byte) : List Byte := frameLength body.length :: body ++ leBytes (frameCrc body)

theorem frame_eq_cons (p : Byte) (body : List Byte) : frame p body = p :: packetOf body := rfl

@[simp] theorem length_packetOf (body : List Byte) : (packetOf body).length = body.length + 3 := by
  simp [packetOf]

/-- FRAME_CMD leaves the frame of IN's body in OUT when the body's size fits (R73). -/
theorem frameCmd_outHolds {s t : State} (ht : exec .frameCmd s = .next t) (hpos : 1 ≤ s.inCount)
    (hmax : s.inCount ≤ 251) : t.errcode = 0x00#8 ∧ outHolds t (frame s.prefixReg (s.inSlice 0 s.inCount)) := by
  obtain rfl := Host.Outcome.next.inj ((exec_frameCmd_frame hpos hmax).symm.trans ht)
  refine ⟨rfl, outHolds_endCommand.mpr (outHolds_setCrc.mpr (outHolds_setOut s ?_))⟩
  rw [length_frame, State.length_inSlice]
  omega

/-- FRAME_CMD reports no error exactly when the body's size fits (R73). -/
theorem frameCmd_errcode_zero_iff {s t : State} (ht : exec .frameCmd s = .next t) :
    t.errcode = 0x00#8 ↔ 1 ≤ s.inCount ∧ s.inCount ≤ 251 := by
  have herr := holds_of_next (frameCmd_verdict s) ht
  rw [herr, toNat_inLen]
  split
  · next hsize => exact iff_of_false (by decide) (by omega)
  · next hsize => exact iff_of_true rfl (by omega)

/-- Settles O18: OUT holds the frame, four bytes longer than the body, whose byte 1 is its length byte. -/
theorem framedLengthsRoundTrip : Obligations.FramedLengthsRoundTrip := by
  unfold Obligations.FramedLengthsRoundTrip
  intro s hpos hmax
  rw [toNat_inLen] at hpos hmax ⊢
  obtain ⟨t, ht, -⟩ := exec_effect .frameCmd s
  obtain ⟨herr, hlen, hread⟩ := frameCmd_outHolds ht hpos hmax
  refine ⟨t, ht, herr, by simpa using hlen, ?_⟩
  rw [hread, frame_eq_cons, packetOf]
  simp [frameLength]
  omega

/-- Settles O21: the packet in IN is FRAME_CMD's frame without PREFIX, and its trailer is right by construction. -/
theorem encoderAndDecoderAgree : Obligations.EncoderAndDecoderAgree := by
  unfold Obligations.EncoderAndDecoderAgree
  intro s t u ht herr hlen hu
  simp only [toNat_inLen] at hlen hu ⊢
  obtain ⟨hpos, hmax⟩ := (frameCmd_errcode_zero_iff ht).mp herr
  obtain ⟨-, -, hread⟩ := frameCmd_outHolds ht hpos hmax
  have hbody : (s.inSlice 0 s.inCount).length = s.inCount := by simp
  have hpacket : u.inSlice 0 u.inCount = packetOf (s.inSlice 0 s.inCount) := by
    refine State.inSlice_eq (by rw [length_packetOf, hbody]; exact hlen.symm) fun k hk => ?_
    rw [Nat.zero_add, hu k (by simpa using hk), hread, frame_eq_cons, List.getD_cons_succ, List.getD_eq_getElem _ _ hk]
  have hbyte : frameLength (s.inSlice 0 s.inCount).length = u.inByte 0 :=
    (inByte_of_inSlice hpacket (k := 0) (by simp)).symm
  have hfirst : (u.inByte 0).toNat = s.inCount + 3 := by
    rw [← hbyte, hbody, frameLength, BitVec.toNat_ofNat]
    exact Nat.mod_eq_of_lt (by omega)
  have hresp := valResp_of_inSlice (by rwa [hbody]) hpacket
  refine ⟨hfirst, _, hresp, ⟨rfl, rfl, ?_⟩, ?_⟩
  · rw [State.endCommand_status, hbyte, hfirst, ← hlen, beq_self_eq_true]
    rfl
  · exact outHolds_endCommand.mpr (outHolds_setOut _ (by omega))

/-! ### The invariant of the block (R17, R18, R26, R29) -/

section invariant
variable {s t : State}

/-- OUT rewritten with `bs` is 0x00 from OUT_LEN on (R28). -/
theorem outTailZero_of_ofBytes {bs : List Byte} (hlen : bs.length ≤ 255) (hbuf : t.outBuf = Memory.ofBytesFrom 0 bs)
    (hout : t.outLen = BitVec.ofNat 8 bs.length) : outTailZero t := by
  intro i hi _
  have hi' : bs.length ≤ i := by
    rw [hout, BitVec.toNat_ofNat] at hi
    omega
  rw [hbuf, Memory.read_ofBytes bs (Nat.le_succ_of_le hlen), List.getD_eq_default _ _ hi']

/-- Every command keeps the OUT invariant: it leaves OUT alone or rewrites all of it. -/
theorem CommandEffect.outTailZero {v : Byte} (h : CommandEffect s t v) (hs : outTailZero s) : outTailZero t := by
  rcases h.out with ⟨hbuf, hout⟩ | ⟨bs, hlen, hbuf, hout⟩
  · intro i hi
    rw [hbuf]
    exact hs i (hout ▸ hi)
  · exact outTailZero_of_ofBytes hlen hbuf hout

/-- Every host write keeps the OUT invariant: only a command writes OUT or OUT_LEN. -/
theorem WriteEffect.outTailZero {a : Addr} {v : Byte} (h : WriteEffect s t a v) (hs : outTailZero s) :
    outTailZero t := by
  cases h with
  | command ha h => exact h.outTailZero hs
  | inByte ha h | inLen ha h | prefixReg ha h | data ha h | claimLo ha h | claimHi ha h | ignored h => subst h; exact hs

theorem outTailZero_reset (ms : List HostMove) : outTailZero (State.reset.setPending ms) := fun _ _ _ => rfl

/-- Settles O52: a step is a read, a write or a reset, and only a write can run a command. -/
theorem outputTailStaysZero : Obligations.OutputTailStaysZero := by
  unfold Obligations.OutputTailStaysZero
  refine ⟨outTailZero_reset [], fun s t hs hstep => ?_⟩
  cases step_cases hstep with
  | idle hp h | read a rest hp h => subst h; exact hs
  | write a v rest hp h => exact h.outTailZero hs
  | reset rest hp h => subst h; exact outTailZero_reset rest

/-- STATUS after a command: the reserved bits are 0, and ERR is set exactly when ERRCODE is not NONE (R17). -/
theorem CommandEffect.status {v : Byte} (h : CommandEffect s t v) :
    t.status.toNat < 8 ∧ (t.errFlag = true ↔ t.errcode ≠ 0x00#8) := by
  obtain ⟨e, m, l, herr, hstatus⟩ := h.outcome
  constructor
  · rw [hstatus, toNat_statusByte]
    split <;> split <;> split <;> decide
  · have hflag : t.errFlag = (e != .none) := by
      rw [State.errFlag, hstatus]
      exact State.endCommand_errFlag t v e m l
    rw [hflag, herr, bne_iff_ne, ne_eq, ne_eq, ErrorCode.code_eq_zero]

theorem CommandEffect.inv {v : Byte} (h : CommandEffect s t v) (hs : s.Inv) : t.Inv := by
  obtain ⟨hin, hout⟩ := h.wf hs.inWf hs.outWf
  obtain ⟨hreserved, herr⟩ := h.status
  obtain ⟨e, m, l, hcode, -⟩ := h.outcome
  have hremain : t.remain.toNat ≤ 251 := h.remain.elim (fun heq => heq ▸ hs.remainRange) id
  exact ⟨hin, hout, hreserved, herr, hcode ▸ e.toNat_code_le, hremain, h.outTailZero hs.outTail⟩

/-- The operands the host stores have no part in the invariant but for IN's canonical form. -/
theorem WriteEffect.inv {a : Addr} {v : Byte} (h : WriteEffect s t a v) (hs : s.Inv) : t.Inv := by
  obtain ⟨hin, hout⟩ := h.wf hs.inWf hs.outWf
  have htail := h.outTailZero hs.outTail
  cases h with
  | command ha h => exact h.inv hs
  | inByte ha h | inLen ha h | prefixReg ha h | data ha h | claimLo ha h | claimHi ha h | ignored h =>
    subst h
    exact ⟨hin, hout, hs.statusReserved, hs.errIffErrcode, hs.errcodeRange, hs.remainRange, htail⟩

theorem State.Inv.setPending (hs : s.Inv) (ms : List HostMove) : (s.setPending ms).Inv :=
  ⟨hs.inWf, hs.outWf, hs.statusReserved, hs.errIffErrcode, hs.errcodeRange, hs.remainRange, hs.outTail⟩

theorem State.Inv.observe (hs : s.Inv) (b : Byte) : (s.observe b).Inv :=
  ⟨hs.inWf, hs.outWf, hs.statusReserved, hs.errIffErrcode, hs.errcodeRange, hs.remainRange, hs.outTail⟩

/-- Settles O53: the values of R93. -/
theorem invariantHoldsAtReset : Obligations.InvariantHoldsAtReset := by
  unfold Obligations.InvariantHoldsAtReset
  obtain ⟨hin, hout⟩ := reset_wf
  exact ⟨hin, hout, by decide, by decide, by decide, by decide, outTailZero_reset []⟩

/-- Settles O54: what each of the host's moves can do keeps each clause of the invariant. -/
theorem stepKeepsTheInvariant : Obligations.StepKeepsTheInvariant := by
  unfold Obligations.StepKeepsTheInvariant
  intro s t hs hstep
  cases step_cases hstep with
  | idle hp h => subst h; exact hs
  | read a rest hp h => subst h; exact (hs.setPending rest).observe _
  | write a v rest hp h => exact h.inv (hs.setPending rest)
  | reset rest hp h => subst h; exact invariantHoldsAtReset.setPending rest

end invariant

/-! ### The algebra of the CRC (R60, R63, R70, R71) -/

theorem crcStep_zero_zero : crcStep 0x0000#16 0x00#8 = 0x0000#16 := by decide

/-- Folding bytes through the register is linear in register and data together. -/
theorem foldl_crcStep_xor (a b : List Byte) (h : a.length = b.length) (c c' : Word) :
    (List.zipWith (· ^^^ ·) a b).foldl crcStep (c ^^^ c') = a.foldl crcStep c ^^^ b.foldl crcStep c' := by
  induction a generalizing b c c' with
  | nil => rw [List.eq_nil_of_length_eq_zero h.symm]; rfl
  | cons x a ih =>
    cases b with
    | nil => cases h
    | cons y b =>
      rw [List.zipWith_cons_cons, List.foldl_cons, crcStep_xor]
      exact ih b (Nat.succ.inj h) _ _

theorem crc16_zipWith_xor (a b : List Byte) (h : a.length = b.length) :
    crc16 (List.zipWith (· ^^^ ·) a b) = crc16 a ^^^ crc16 b :=
  foldl_crcStep_xor a b h 0x0000#16 0x0000#16

/-- A zero register stays zero under zero bytes, so they can be dropped from the front. -/
theorem crc16_replicate_zero_append (k : Nat) (bs : List Byte) : crc16 (List.replicate k 0x00#8 ++ bs) = crc16 bs := by
  induction k with
  | zero => rfl
  | succ k ih =>
    calc
      _ = (List.replicate k 0x00#8 ++ bs).foldl crcStep (crcStep 0x0000#16 0x00#8) := rfl
      _ = crc16 (List.replicate k 0x00#8 ++ bs) := by rw [crcStep_zero_zero]; rfl
      _ = crc16 bs := ih

theorem crc16_replicate_zero (k : Nat) : crc16 (List.replicate k 0x00#8) = 0x0000#16 := by
  rw [← List.append_nil (List.replicate k 0x00#8), crc16_replicate_zero_append]
  exact emptyInputHasCrcZero

/-- Settles O4: linearity by induction on the bytes; an all-zero packet carries its own CRC as its trailer. -/
theorem crcIsLinearAndBlindToLeadingZeros : Obligations.CrcIsLinearAndBlindToLeadingZeros := by
  unfold Obligations.CrcIsLinearAndBlindToLeadingZeros
  refine ⟨crc16_zipWith_xor, by decide, by decide, crc16_replicate_zero_append, crc16_replicate_zero,
    fun s hlen hbytes => ?_⟩
  have hN : s.inCount = 4 := congrArg BitVec.toNat hlen
  have htrailer : leBytes (crc16 [0x00#8, 0x00#8]) = [0x00#8, 0x00#8] := congrArg leBytes (crc16_replicate_zero 2)
  have hpacket : s.inSlice 0 s.inCount = 0x00#8 :: [0x00#8] ++ leBytes (crc16 (0x00#8 :: [0x00#8])) := by
    rw [hN, hbytes, htrailer]
    rfl
  exact ⟨_, valResp_of_inSlice (by simp) hpacket, rfl, State.endCommand_matchFlag ..⟩

/-- Settles O5: both residues, bit by bit. -/
theorem noConstantResidue : Obligations.NoConstantResidue := by
  unfold Obligations.NoConstantResidue
  simp [crc16, crcStep, dataBits, crcBit, Config.poly, Config.crcInit, leBytes, lowByte, highByte]

section reversal
variable (x y : Word)

theorem reverse_xor : (x ^^^ y).reverse = x.reverse ^^^ y.reverse := by
  apply BitVec.eq_of_getLsbD_eq
  intro i hi
  simp [BitVec.getLsbD_reverse]

theorem reverse_shiftLeft_one : (x <<< 1).reverse = x.reverse >>> 1 := by
  apply BitVec.eq_of_getLsbD_eq
  intro i hi
  simp [BitVec.getLsbD_reverse, Nat.add_comm]

theorem getLsbD_zero_reverse : x.reverse.getLsbD 0 = x.getLsbD 15 := by
  rw [BitVec.getLsbD_reverse]
  rfl

end reversal

/-- One bit through the block's register is, bit-reversed, one bit through the catalogue's (R60): the top bit is the
bottom one, left shifts are right shifts, and 0x8005 is 0xA001. -/
theorem reverse_crcBit (c : Word) (d : Bool) : (crcBit c d).reverse = arcBit c.reverse d := by
  have hpoly : BitVec.reverse Config.poly = 0xA001#16 := by decide
  rw [crcBit, arcBit, getLsbD_zero_reverse, apply_ite BitVec.reverse, reverse_xor, reverse_shiftLeft_one, hpoly]

theorem reverse_foldl_crcBit (ds : List Bool) (c : Word) :
    (ds.foldl crcBit c).reverse = ds.foldl arcBit c.reverse := by
  induction ds generalizing c with
  | nil => rfl
  | cons d ds ih => rw [List.foldl_cons, ih, reverse_crcBit, List.foldl_cons]

theorem reverse_crcStep (c : Word) (b : Byte) :
    (crcStep c b).reverse = [0, 1, 2, 3, 4, 5, 6, 7].foldl (fun r i => arcBit r (b.getLsbD i)) c.reverse := by
  rw [crcStep, reverse_foldl_crcBit, dataBits, List.foldl_map]

theorem reverse_foldl_crcStep (bs : List Byte) (c : Word) :
    (bs.foldl crcStep c).reverse =
      bs.foldl (fun r b => [0, 1, 2, 3, 4, 5, 6, 7].foldl (fun r i => arcBit r (b.getLsbD i)) r) c.reverse := by
  induction bs generalizing c with
  | nil => rfl
  | cons b bs ih =>
    rw [List.foldl_cons, ih, reverse_crcStep]
    rfl

theorem reverse_crc16 (bs : List Byte) : (crc16 bs).reverse = catalogueArc bs := reverse_foldl_crcStep bs 0x0000#16

theorem crc16_digits :
    crc16 [0x31#8, 0x32#8, 0x33#8, 0x34#8, 0x35#8, 0x36#8, 0x37#8, 0x38#8, 0x39#8] = 0xBCDD#16 := by
  simp [crc16, crcStep, dataBits, crcBit, Config.poly, Config.crcInit]

/-- Settles O6: bit reversal carries the one register to the other, bit by bit. -/
theorem crcIsTheReversedCatalogueArc : Obligations.CrcIsTheReversedCatalogueArc := by
  unfold Obligations.CrcIsTheReversedCatalogueArc
  refine ⟨reverse_crc16, crc16_digits, ?_⟩
  rw [← reverse_crc16, crc16_digits]
  decide

/-- No top bit comes up while a low byte moves to the high byte, so a zero byte only shifts it. -/
theorem crcStep_low (lo : Byte) : crcStep (leWord lo 0x00#8) 0x00#8 = leWord 0x00#8 lo := by
  simp [crcStep, dataBits, crcBit, leWord, zext16, BitVec.getLsbD_of_ge]

theorem lowByte_xor (c c' : Word) : lowByte (c ^^^ c') = lowByte c ^^^ lowByte c' := BitVec.extractLsb'_xor

theorem highByte_xor (c c' : Word) : highByte (c ^^^ c') = highByte c ^^^ highByte c' := BitVec.extractLsb'_xor

theorem xor_leWord (lo hi lo' hi' : Byte) : leWord lo hi ^^^ leWord lo' hi' = leWord (lo ^^^ lo') (hi ^^^ hi') := by
  rw [← leWord_bytes (leWord lo hi ^^^ leWord lo' hi'), lowByte_xor, highByte_xor]
  simp only [lowByte_leWord, highByte_leWord]

/-- A zero byte shifts the low byte up, and the high byte comes back through the polynomial. -/
theorem crcStep_leWord_zero (lo hi : Byte) :
    crcStep (leWord lo hi) 0x00#8 = leWord 0x00#8 lo ^^^ crcStep (leWord 0x00#8 hi) 0x00#8 := by
  have hsplit : leWord lo hi = leWord lo 0x00#8 ^^^ leWord 0x00#8 hi := by
    rw [xor_leWord, BitVec.xor_zero, BitVec.zero_xor]
  calc
    _ = crcStep (leWord lo 0x00#8 ^^^ leWord 0x00#8 hi) (0x00#8 ^^^ 0x00#8) := by rw [hsplit, BitVec.xor_self]
    _ = _ := by rw [crcStep_xor, crcStep_low]

/-- What a zero byte makes of a register with high byte `hi` and low byte 0x00. -/
def highFeedback (hi : Byte) : Word := crcStep (leWord 0x00#8 hi) 0x00#8

/-- The 256 high bytes, one by one: with the low byte that the feedback leaves, only two registers come back whole. -/
theorem highByte_fixed (hi : Byte) (h : leWord 0x00#8 (lowByte (highFeedback hi)) ^^^ highFeedback hi =
      leWord (lowByte (highFeedback hi)) hi) :
    leWord (lowByte (highFeedback hi)) hi = 0x0000#16 ∨ leWord (lowByte (highFeedback hi)) hi = 0x8003#16 := by
  revert hi
  decide +kernel

/-- Settles O7: the low byte of a fixed register is the one its high byte feeds back. -/
theorem zeroByteKeepsOnlyTwoRegisterValues : Obligations.ZeroByteKeepsOnlyTwoRegisterValues := by
  unfold Obligations.ZeroByteKeepsOnlyTwoRegisterValues
  intro c
  constructor
  · intro hfix
    have hbytes : leWord 0x00#8 (lowByte c) ^^^ highFeedback (highByte c) = c := by
      rw [highFeedback, ← crcStep_leWord_zero, leWord_bytes, hfix]
    have hlow : lowByte c = lowByte (highFeedback (highByte c)) := by
      have hlow := congrArg lowByte hbytes
      rw [lowByte_xor, lowByte_leWord, BitVec.zero_xor] at hlow
      exact hlow.symm
    have hword : c = leWord (lowByte (highFeedback (highByte c))) (highByte c) := by rw [← hlow, leWord_bytes]
    rw [hlow] at hbytes
    have hkey := highByte_fixed (highByte c) (hbytes.trans hword)
    rwa [← hword] at hkey
  · rintro (rfl | rfl)
    · exact crcStep_zero_zero
    · decide

/-- Settles O9: the completion after one write of CRC, and a zero byte in a zero register. -/
theorem crcByteFeedsDataIntoTheRunningCrc : Obligations.CrcByteFeedsDataIntoTheRunningCrc := by
  unfold Obligations.CrcByteFeedsDataIntoTheRunningCrc
  intro s
  refine ⟨_, exec_crcByte s, rfl, ⟨rfl, rfl, rfl⟩, frameExcept_setCrc_endCommand .., fun hdata hcrc => ?_⟩
  rw [State.endCommand_crc, State.setCrc_crc, hdata, hcrc, crcStep_zero_zero]

/-- Settles O47: the body is four bytes, so the length byte is 0x07. -/
theorem chipReadCommandIsAnEightByteFrame : Obligations.ChipReadCommandIsAnEightByteFrame := by
  unfold Obligations.ChipReadCommandIsAnEightByteFrame
  intro zone addr
  rfl

/-! ### Codes, addresses and spellings (R32, R46, R47, R58) -/

/-- Settles O24: the codes written out are those the encoder gives. -/
theorem tableCodesDecodeToTheirCommands : Obligations.TableCodesDecodeToTheirCommands := by
  unfold Obligations.TableCodesDecodeToTheirCommands
  exact ⟨decode_encode .crcClr, decode_encode .crcByte, decode_encode .crcBuf, decode_encode .crcCmp,
    decode_encode .valTrailer, decode_encode .frameCmd, decode_encode .valResp, decode_encode .hdrExtract,
    decode_encode .chkWake⟩

theorem encode_of_decode {v : Byte} {i : Instr} (h : decode v = .ok i) : encode i = v := by
  rcases decode_cases v with ⟨j, hj, hv⟩ | herr
  · cases hj.symm.trans h
    exact hv
  · cases herr.symm.trans h

/-- Settles O25. -/
theorem decodeAndEncodeAgree : Obligations.DecodeAndEncodeAgree := by
  unfold Obligations.DecodeAndEncodeAgree
  exact ⟨decode_encode, fun _ _ => encode_of_decode⟩

/-- A step whose move writes a command's code to CMD is that command's meaning (R46). -/
theorem step_command {s : State} {v : Byte} {i : Instr} {rest : List HostMove}
    (hp : s.pending = .write (regAddr .cmd) v :: rest) (hv : decode v = .ok i) : step s = exec i (s.setPending rest) :=
  calc
    step s = hostWrite (s.setPending rest) (regAddr .cmd) v := step_write hp
    _ = startCommand v (s.setPending rest) := hostWrite_reg .cmd v
    _ = exec i (s.setPending rest) := startCommand_legal hv

theorem tableByte_encode (i : Instr) : tableByte 8 (encode i).toNat = encode i := by
  cases i <;> rfl

/-- Settles O26: the fetch word is one write of CMD in front of the moves that wait. -/
theorem stepRunsTheDecodedCommand : Obligations.StepRunsTheDecodedCommand := by
  unfold Obligations.StepRunsTheDecodedCommand
  refine ⟨fun s v i rest hp hv => step_command hp hv, fun s i => ?_⟩
  have hv : decode (tableByte 8 (encode i).toNat) = .ok i := by rw [tableByte_encode, decode_encode]
  exact step_command (s := s.withFetchWord 8 (encode i).toNat) rfl hv

theorem regAddr_injective {r r' : HostReg} (h : regAddr r = regAddr r') : r = r' := by
  have hplace := congrArg placeOf h
  rwa [placeOf_regAddr, placeOf_regAddr, Place.reg.injEq] at hplace

/-- The register rows of R32 lie from 0x200 to 0x20D, with 0x207 left out. -/
theorem toNat_regAddr (r : HostReg) :
    0x200 ≤ (regAddr r).toNat ∧ (regAddr r).toNat < 0x20E ∧ (regAddr r).toNat ≠ 0x207 := by
  cases r <;> decide

/-- Below 0x20E every address from 0x200 on but 0x207 is a register's (R32). -/
theorem exists_regAddr_eq {a : Addr} (hlo : 0x200 ≤ a.toNat) (hhi : a.toNat < 0x20E) (hne : a.toNat ≠ 0x207) :
    ∃ r, regAddr r = a := by
  have hrow : ∀ n < 0x0E, n ≠ 7 → ∃ r ∈ registerMap, regAddr r = BitVec.ofNat 10 (0x200 + n) := by decide
  obtain ⟨r, -, hr⟩ := hrow (a.toNat - 0x200) (by omega) (by omega)
  exact ⟨r, by rw [hr, Nat.add_sub_cancel' hlo, BitVec.ofNat_toNat, BitVec.setWidth_eq]⟩

theorem placeOf_eq_reserved_iff (a : Addr) : placeOf a = .reserved ↔ a.toNat = 0x207 ∨ 0x20E ≤ a.toNat := by
  rcases placeOf_cases a with ⟨ha, hp⟩ | ⟨-, ha, hp⟩ | ⟨r, rfl, hp⟩ | ⟨hlo, hne, hp⟩
  · simp only [hp, reduceCtorEq, false_iff]
    omega
  · simp only [hp, reduceCtorEq, false_iff]
    omega
  · obtain ⟨-, hhi, hgap⟩ := toNat_regAddr r
    simp only [hp, reduceCtorEq, false_iff]
    omega
  · refine iff_of_true hp ?_
    by_contra hrow
    obtain ⟨hgap, hhi⟩ := not_or.mp hrow
    obtain ⟨r, hr⟩ := exists_regAddr_eq hlo (Nat.lt_of_not_le hhi) hgap
    exact hne r hr.symm

/-- Settles O42: an address decodes to at most one register, so no two registers share one. -/
theorem addressMapHasNoOverlap : Obligations.AddressMapHasNoOverlap := by
  unfold Obligations.AddressMapHasNoOverlap
  exact ⟨fun _ _ => regAddr_injective, placeOf_regAddr, placeOf_eq_reserved_iff⟩

theorem loadWrites_eq_mapIdx (bs : List Byte) (k : Nat) :
    loadWrites k bs = bs.mapIdx fun j b => .write (BitVec.ofNat 10 (k + j)) b := by
  induction bs generalizing k with
  | nil => rfl
  | cons b bs ih =>
    simp only [loadWrites, List.mapIdx_cons, ih, inAddr, Nat.add_zero, Nat.add_assoc, Nat.add_comm 1]

/-- Settles O43: each expansion is R58's formula as it stands, LOAD's by induction on its bytes. -/
theorem pseudoInstructionsExpandAsListed : Obligations.PseudoInstructionsExpandAsListed := by
  unfold Obligations.PseudoInstructionsExpandAsListed
  refine ⟨fun _ => rfl, fun bs => ?_, fun _ => rfl, fun _ => rfl, rfl, fun _ => rfl⟩
  have hwrites := loadWrites_eq_mapIdx bs 0
  simp only [Nat.zero_add] at hwrites
  rw [← hwrites]
  rfl

/-! ### Verdicts of the packet commands on related states (R28, R78, R79, R81) -/

/-- Settles O19: the payload of `n` bytes is what stands between the length byte and the trailer. -/
theorem validatedPayloadIsThreeBytesShorter : Obligations.ValidatedPayloadIsThreeBytesShorter := by
  unfold Obligations.ValidatedPayloadIsThreeBytesShorter
  intro s hlong hcrc
  refine ⟨_, exec_valResp_match hlong hcrc, rfl, ?_⟩
  have hN : s.inCount < 256 := s.inLen.isLt
  rw [State.endCommand_outLen, State.setOut_outLen, length_payload, State.length_inSlice, BitVec.toNat_ofNat,
    toNat_inLen]
  omega

theorem xor_twoPow_ne (b : Byte) {k : Nat} (hk : k < 8) : b ^^^ BitVec.ofNat 8 (2 ^ k) ≠ b := by
  intro h
  have hzero : BitVec.ofNat 8 (2 ^ k) = 0x00#8 := by simpa using h
  have hpow : 2 ^ k < 2 ^ 8 := Nat.pow_lt_pow_right (by decide) hk
  have htoNat := congrArg BitVec.toNat hzero
  rw [BitVec.toNat_ofNat, Nat.mod_eq_of_lt hpow] at htoNat
  exact absurd htoNat (Nat.two_pow_pos k).ne'

/-- A packet with one bit of its trailer flipped claims another CRC (R53). -/
theorem trailer_ne_of_flipped {s u : State} {n j k : Nat} (hj : j = n - 2 ∨ j = n - 1) (hk : k < 8)
    (hu : ∀ i : Nat, u.inByte i = if i = j then s.inByte i ^^^ BitVec.ofNat 8 (2 ^ k) else s.inByte i) :
    u.trailer n ≠ s.trailer n := by
  intro h
  obtain ⟨hlo, hhi⟩ := leWord_inj.mp h
  have hsame : u.inByte j = s.inByte j := by
    rcases hj with rfl | rfl
    · exact hlo
    · exact hhi
  rw [hu j, if_pos rfl] at hsame
  exact xor_twoPow_ne _ hk hsame

/-- Settles O20: the flipped bit changes the claimed CRC and not the computed one. -/
theorem shortOrTamperedResponsesAreRejected : Obligations.ShortOrTamperedResponsesAreRejected := by
  unfold Obligations.ShortOrTamperedResponsesAreRejected
  refine ⟨fun s hshort => ⟨_, exec_valResp_short hshort, rfl⟩, fun s u j k hlong hcrc hlen hj hk hu => ?_⟩
  rw [toNat_inLen] at *
  have hN : u.inCount = s.inCount := congrArg BitVec.toNat hlen
  have hslice : u.inSlice 0 (s.inCount - 2) = s.inSlice 0 (s.inCount - 2) :=
    State.inSlice_congr fun i _ hi => by rw [hu i, if_neg (by omega)]
  have hmismatch : packetCrc u u.inCount ≠ u.trailer u.inCount := by
    rw [packetCrc, hN, hslice, hcrc]
    exact (trailer_ne_of_flipped hj hk hu).symm
  exact ⟨_, exec_valResp_mismatch (hN ▸ hlong) hmismatch, rfl⟩

/-- What REMAIN says after a header that HDR_EXTRACT accepts: the declared length less the header itself (R75). -/
theorem hdrExtract_remain {s t : State} (ht : exec .hdrExtract s = .next t) (herr : t.errcode = 0x00#8) :
    4 + t.remain.toNat = (s.inByte 0).toNat := by
  have hspec := holds_of_next (hdrExtractReadsTheDeclaredLength s) ht
  split at hspec
  · obtain ⟨⟨-, hcode, -⟩, -⟩ := hspec
    exact absurd (hcode.symm.trans herr) (by decide)
  · obtain ⟨-, -, hspec⟩ := hspec
    split at hspec
    · obtain ⟨-, -, hcode, -⟩ := hspec
      exact absurd (hcode.symm.trans herr) (by decide)
    · omega

/-- Settles O22: the length byte of the completed packet is its number of bytes, so what is left of the verdict is the
CRC. -/
theorem headerThenPacketHasAConsistentLength : Obligations.HeaderThenPacketHasAConsistentLength := by
  unfold Obligations.HeaderThenPacketHasAConsistentLength
  intro s t u _ ht herr hlen hheader
  have hN : u.inLen.toNat = (u.inByte 0).toNat := by rw [hlen, hheader 0 (by decide), hdrExtract_remain ht herr]
  have hlong : 4 ≤ u.inLen.toNat := by omega
  obtain ⟨w, hw, hcode, hlenOk⟩ := valResp_verdict u
  rw [if_neg (Nat.not_lt.mpr hlong)] at hcode
  refine ⟨BitVec.eq_of_toNat_eq hN, w, hw, ?_, ?_⟩
  · rw [hlenOk hlong, hN, beq_self_eq_true]
  · rw [hcode]
    split
    · next hne => exact ⟨iff_of_false (by decide) hne, .inr rfl⟩
    · next heq => exact ⟨iff_of_true rfl (not_not.mp heq), .inl rfl⟩

/-- Settles O23: on either error VAL_RESP leaves OUT empty (D18), and OUT's addresses read OUT. -/
theorem rejectedPacketsExposeNoPayload : Obligations.RejectedPacketsExposeNoPayload := by
  unfold Obligations.RejectedPacketsExposeNoPayload
  intro s t ht herr
  have hempty : outHolds t [] := by
    have hspec := holds_of_next (valRespValidatesAndExtractsThePayload s) ht
    split at hspec
    · exact hspec.1
    · obtain ⟨-, -, -, -, hspec⟩ := hspec
      split at hspec
      · obtain ⟨-, -, hcode, -⟩ := hspec
        exact absurd hcode herr
      · exact hspec.1
  obtain ⟨hlen, hread⟩ := hempty
  exact ⟨BitVec.eq_of_toNat_eq hlen, fun a hlo hhi => (hostRead_out t hlo hhi).trans (hread _)⟩

/-! ### What each command writes and reports (R17, R47, R96, R97) -/

section tableRow
variable {w w' : List Element} {i : Instr} {s t : State}

theorem sameExcept_mono (h : sameExcept w s t) (hw : w ⊆ w') : sameExcept w' s t :=
  fun e he => h e fun hmem => he (hw hmem)

theorem frameExcept_mono (h : frameExcept w s t) (hw : w ⊆ w') : frameExcept w' s t :=
  ⟨sameExcept_mono h.1 hw, h.2⟩

/-- Settles O28: each branch of a command writes its row or less. -/
theorem commandsWriteOnlyTheirTableRow : Obligations.CommandsWriteOnlyTheirTableRow := by
  unfold Obligations.CommandsWriteOnlyTheirTableRow
  intro i s t ht
  cases i with
  | crcClr =>
    obtain ⟨-, -, hframe⟩ := holds_of_next (crcClrClearsTheAccumulator s) ht
    exact hframe
  | crcByte =>
    obtain ⟨-, -, hframe, -⟩ := holds_of_next (crcByteFeedsDataIntoTheRunningCrc s) ht
    exact hframe
  | crcBuf =>
    obtain ⟨-, -, hframe, -⟩ := holds_of_next (crcBufComputesTheCrcOfTheInput s) ht
    exact hframe
  | crcCmp =>
    obtain ⟨-, -, hframe, -⟩ := holds_of_next (crcCmpReportsWhetherTheClaimMatches s) ht
    exact hframe
  | valTrailer =>
    have hspec := holds_of_next (valTrailerChecksTheLastTwoBytes s) ht
    split at hspec
    · exact frameExcept_mono hspec.2 (List.subset_append_right _ _)
    · obtain ⟨-, -, -, hframe⟩ := hspec
      exact hframe
  | frameCmd =>
    have hspec := holds_of_next (frameCmdBuildsTheCommandFrame s) ht
    split at hspec
    · obtain ⟨-, -, hframe⟩ := hspec
      exact frameExcept_mono hframe (List.subset_cons_self _ _)
    · obtain ⟨-, -, -, hframe⟩ := hspec
      exact hframe
  | valResp =>
    have hspec := holds_of_next (valRespValidatesAndExtractsThePayload s) ht
    split at hspec
    · obtain ⟨-, -, hframe⟩ := hspec
      exact frameExcept_mono hframe (List.subset_append_right [Element.crc, .claim, .rxLen] _)
    · obtain ⟨-, -, -, hframe, -⟩ := hspec
      exact hframe
  | hdrExtract =>
    have hspec := holds_of_next (hdrExtractReadsTheDeclaredLength s) ht
    split at hspec
    · exact frameExcept_mono hspec.2 (List.subset_append_right _ _)
    · obtain ⟨-, hframe, -⟩ := hspec
      exact hframe
  | chkWake =>
    have hspec := holds_of_next (chkWakeAcceptsOnlyTheWakeAcknowledge s) ht
    split at hspec
    · exact frameExcept_mono hspec.2 (List.subset_append_right _ _)
    · obtain ⟨-, -, -, hframe, -⟩ := hspec
      exact hframe

/-- An element outside the command's row is kept (R47). -/
theorem same_of_exec (ht : exec i s = .next t) {e : Element} (he : e ∉ tableWrites i ++ completionWrites) :
    e.same s t :=
  (commandsWriteOnlyTheirTableRow i s t ht).1 e he

end tableRow

/-! ### CRC, CLAIM, ERRCODE and STATUS after a command (R17, R47, R96, R97) -/

section registers
variable {i : Instr} {s t : State}

theorem valTrailer_crcs (ht : exec .valTrailer s = .next t) :
    t.crc = (if 2 ≤ s.inCount then packetCrc s s.inCount else s.crc) ∧
      t.claim = if 2 ≤ s.inCount then s.trailer s.inCount else s.claim := by
  by_cases hN : 2 ≤ s.inCount
  · obtain rfl := Host.Outcome.next.inj ((exec_valTrailer_long hN).symm.trans ht)
    exact ⟨(if_pos hN).symm, (if_pos hN).symm⟩
  · obtain rfl := Host.Outcome.next.inj ((exec_valTrailer_short (Nat.lt_of_not_le hN)).symm.trans ht)
    exact ⟨(if_neg hN).symm, (if_neg hN).symm⟩

theorem valResp_crcs (ht : exec .valResp s = .next t) :
    t.crc = (if 4 ≤ s.inCount then packetCrc s s.inCount else s.crc) ∧
      t.claim = if 4 ≤ s.inCount then s.trailer s.inCount else s.claim := by
  by_cases hN : 4 ≤ s.inCount
  · rw [if_pos hN, if_pos hN]
    by_cases hcrc : packetCrc s s.inCount = s.trailer s.inCount
    · obtain rfl := Host.Outcome.next.inj ((exec_valResp_match hN hcrc).symm.trans ht)
      exact ⟨rfl, rfl⟩
    · obtain rfl := Host.Outcome.next.inj ((exec_valResp_mismatch hN hcrc).symm.trans ht)
      exact ⟨rfl, rfl⟩
  · obtain rfl := Host.Outcome.next.inj ((exec_valResp_short (Nat.lt_of_not_le hN)).symm.trans ht)
    exact ⟨(if_neg hN).symm, (if_neg hN).symm⟩

theorem chkWake_crcs (ht : exec .chkWake s = .next t) :
    t.crc = (if s.inCount = 4 then packetCrc s 4 else s.crc) ∧
      t.claim = if s.inCount = 4 then s.trailer s.inCount else s.claim := by
  by_cases hN : s.inCount = 4
  · rw [if_pos hN, if_pos hN, hN]
    by_cases hcrc : packetCrc s 4 = s.trailer 4
    · by_cases hack : s.inByte 1 = 0x11#8
      · obtain rfl := Host.Outcome.next.inj ((exec_chkWake_accepted hN hcrc hack).symm.trans ht)
        exact ⟨rfl, rfl⟩
      · obtain rfl := Host.Outcome.next.inj ((exec_chkWake_rejected hN hcrc hack).symm.trans ht)
        exact ⟨rfl, rfl⟩
    · obtain rfl := Host.Outcome.next.inj ((exec_chkWake_mismatch hN hcrc).symm.trans ht)
      exact ⟨rfl, rfl⟩
  · obtain rfl := Host.Outcome.next.inj ((exec_chkWake_size hN).symm.trans ht)
    exact ⟨(if_neg hN).symm, (if_neg hN).symm⟩

theorem frameCmd_crc (ht : exec .frameCmd s = .next t) :
    t.crc = if 1 ≤ s.inCount ∧ s.inCount ≤ 251 then frameCrc (s.inSlice 0 s.inCount) else s.crc := by
  by_cases hsize : 1 ≤ s.inCount ∧ s.inCount ≤ 251
  · obtain ⟨hpos, hmax⟩ := hsize
    obtain rfl := Host.Outcome.next.inj ((exec_frameCmd_frame hpos hmax).symm.trans ht)
    exact (if_pos ⟨hpos, hmax⟩).symm
  · obtain rfl := Host.Outcome.next.inj ((exec_frameCmd_size (by omega)).symm.trans ht)
    exact (if_neg hsize).symm

/-- Settles O35: the commands that compute a CRC, one by one; HDR_EXTRACT's row does not name CRC. -/
theorem crcIsOverwrittenOnlyAsListed : Obligations.CrcIsOverwrittenOnlyAsListed := by
  unfold Obligations.CrcIsOverwrittenOnlyAsListed
  intro i s t ht hclr hbyte
  cases i with
  | crcClr => exact absurd rfl hclr
  | crcByte => exact absurd rfl hbyte
  | crcBuf => exact (holds_of_next (crcBufComputesTheCrcOfTheInput s) ht).1
  | crcCmp => exact (holds_of_next (crcCmpReportsWhetherTheClaimMatches s) ht).1
  | valTrailer => exact (valTrailer_crcs ht).1
  | frameCmd => exact frameCrc_inSlice s s.inCount ▸ frameCmd_crc ht
  | valResp => exact (valResp_crcs ht).1
  | hdrExtract => exact same_of_exec ht (e := .crc) (by decide)
  | chkWake => exact (chkWake_crcs ht).1

/-- Settles O36: the three commands that read a trailer; the rows of the others do not name CLAIM. -/
theorem claimIsOverwrittenOnlyAsListed : Obligations.ClaimIsOverwrittenOnlyAsListed := by
  unfold Obligations.ClaimIsOverwrittenOnlyAsListed
  intro i s t ht
  cases i with
  | valTrailer => exact (valTrailer_crcs ht).2.trans (if_congr (by simp [toNat_inLen]) rfl rfl)
  | valResp => exact (valResp_crcs ht).2.trans (if_congr (by simp [toNat_inLen]) rfl rfl)
  | chkWake => exact (chkWake_crcs ht).2.trans (if_congr (by simp [toNat_inLen]) rfl rfl)
  | crcClr | crcByte | crcBuf | crcCmp | frameCmd | hdrExtract =>
    exact Eq.trans (same_of_exec ht (e := .claim) (by decide)) (if_neg (by simp)).symm

theorem flags_of_next {o : Host.Outcome State Fault Refusal} {u : State} {v : Byte} {e : ErrorCode} {m l : Bool}
    (ho : o = .next (u.endCommand v e m l)) (ht : o = .next t) : t.matchFlag = m ∧ t.lenOkFlag = l := by
  obtain rfl := Host.Outcome.next.inj (ho.symm.trans ht)
  exact ⟨State.endCommand_matchFlag .., State.endCommand_lenOkFlag ..⟩

theorem frameCmd_flags (ht : exec .frameCmd s = .next t) : t.matchFlag = false ∧ t.lenOkFlag = false := by
  by_cases hsize : s.inCount = 0 ∨ 252 ≤ s.inCount
  · exact flags_of_next (exec_frameCmd_size hsize) ht
  · exact flags_of_next (exec_frameCmd_frame (by omega) (by omega)) ht

theorem valTrailer_lenOkFlag (ht : exec .valTrailer s = .next t) : t.lenOkFlag = false := by
  rcases Nat.lt_or_ge s.inCount 2 with hshort | hlong
  · exact (flags_of_next (exec_valTrailer_short hshort) ht).2
  · exact (flags_of_next (exec_valTrailer_long hlong) ht).2

theorem hdrExtract_matchFlag (ht : exec .hdrExtract s = .next t) : t.matchFlag = false := by
  rcases Nat.lt_or_ge s.inCount 4 with hshort | hlong
  · exact (flags_of_next (exec_hdrExtract_short hshort) ht).1
  rcases Nat.lt_or_ge (s.inByte 0).toNat 4 with hsmall | hlen
  · exact (flags_of_next (exec_hdrExtract_small hlong hsmall) ht).1
  · exact (flags_of_next (exec_hdrExtract_length hlong hlen) ht).1

/-- MATCH after a command that makes no comparison (R17). -/
theorem matchFlag_of_unlisted (ht : exec i s = .next t) (hi : i ∉ [Instr.crcCmp, .valTrailer, .valResp, .chkWake]) :
    t.matchFlag = false := by
  cases i with
  | crcClr => exact (flags_of_next (exec_crcClr s) ht).1
  | crcByte => exact (flags_of_next (exec_crcByte s) ht).1
  | crcBuf => exact (flags_of_next (exec_crcBuf s) ht).1
  | frameCmd => exact (frameCmd_flags ht).1
  | hdrExtract => exact hdrExtract_matchFlag ht
  | crcCmp | valTrailer | valResp | chkWake => exact absurd (by decide) hi

/-- LEN_OK after a command that looks at no length byte (R17). -/
theorem lenOkFlag_of_unlisted (ht : exec i s = .next t) (hi : i ∉ [Instr.valResp, .hdrExtract, .chkWake]) :
    t.lenOkFlag = false := by
  cases i with
  | crcClr => exact (flags_of_next (exec_crcClr s) ht).2
  | crcByte => exact (flags_of_next (exec_crcByte s) ht).2
  | crcBuf => exact (flags_of_next (exec_crcBuf s) ht).2
  | crcCmp => exact (flags_of_next (exec_crcCmp s) ht).2
  | valTrailer => exact valTrailer_lenOkFlag ht
  | frameCmd => exact (frameCmd_flags ht).2
  | valResp | hdrExtract | chkWake => exact absurd (by decide) hi

/-- Settles O32: an unlisted command leaves the flag 0; ERR and the reserved bits are common to all commands. -/
theorem statusFlagsAreSetOnlyAsListed : Obligations.StatusFlagsAreSetOnlyAsListed := by
  unfold Obligations.StatusFlagsAreSetOnlyAsListed
  intro i s t ht
  obtain ⟨hreserved, herr⟩ := (exec_cases ht).status
  refine ⟨fun hmatch => ?_, fun hlen => ?_, herr, hreserved⟩
  · by_contra hi
    exact Bool.false_ne_true ((matchFlag_of_unlisted ht hi).symm.trans hmatch)
  · by_contra hi
    exact Bool.false_ne_true ((lenOkFlag_of_unlisted ht hi).symm.trans hlen)

/-- For each error a state from which every command whose row lists it reports it: IN empty; a packet whose trailer is
wrong; a packet of zeros, whose CRC is right and whose status byte is not the wake acknowledge; the wake acknowledge. -/
def stateReporting (e : ErrorCode) : State :=
  match e with
  | .malformed | .invalidSize | .illegalCommand => State.reset
  | .checksumMismatch => (State.reset.setInLen 0x04#8).setInByte 3 0x01#8
  | .wakeRejected => State.reset.setInLen 0x04#8
  | .none =>
    ((((State.reset.setInLen 0x04#8).setInByte 0 0x04#8).setInByte 1 0x11#8).setInByte 2 0x33#8).setInByte 3 0x43#8

theorem crc16_wakeAcknowledge : crc16 [0x04#8, 0x11#8] = 0x4333#16 := by
  simp [crc16, crcStep, dataBits, crcBit, Config.poly, Config.crcInit]

theorem crc_stateReporting_none :
    crc16 ((stateReporting .none).inSlice 0 2) = (stateReporting .none).trailer 4 := crc16_wakeAcknowledge

theorem crc_stateReporting_wakeRejected :
    crc16 ((stateReporting .wakeRejected).inSlice 0 2) = (stateReporting .wakeRejected).trailer 4 :=
  crc16_replicate_zero 2

theorem crc_stateReporting_checksumMismatch :
    crc16 ((stateReporting .checksumMismatch).inSlice 0 2) ≠ (stateReporting .checksumMismatch).trailer 4 := by
  have hzero : crc16 ((stateReporting .checksumMismatch).inSlice 0 2) = 0x0000#16 := crc16_replicate_zero 2
  rw [hzero]
  decide

theorem exec_stateReporting {e : ErrorCode} (he : e ∈ ErrorCode.none :: tableErrors i) :
    ∃ t, exec i (stateReporting e) = .next t ∧ t.errcode = e.code := by
  cases i with
  | crcClr =>
    obtain rfl := List.mem_singleton.mp he
    exact ⟨_, exec_crcClr _, rfl⟩
  | crcByte =>
    obtain rfl := List.mem_singleton.mp he
    exact ⟨_, exec_crcByte _, rfl⟩
  | crcBuf =>
    obtain rfl := List.mem_singleton.mp he
    exact ⟨_, exec_crcBuf _, rfl⟩
  | crcCmp =>
    obtain rfl := List.mem_singleton.mp he
    exact ⟨_, exec_crcCmp _, rfl⟩
  | valTrailer =>
    obtain ⟨t, ht, herr, -⟩ := valTrailer_verdict (stateReporting e)
    refine ⟨t, ht, herr.trans ?_⟩
    revert he
    cases e <;> decide
  | frameCmd =>
    obtain ⟨t, ht, herr⟩ := frameCmd_verdict (stateReporting e)
    refine ⟨t, ht, herr.trans ?_⟩
    revert he
    cases e <;> decide
  | valResp =>
    obtain ⟨t, ht, herr, -⟩ := valResp_verdict (stateReporting e)
    refine ⟨t, ht, herr.trans ?_⟩
    cases e with
    | none => exact (if_neg (by decide)).trans (if_neg (not_not_intro crc_stateReporting_none))
    | malformed => rfl
    | checksumMismatch => exact (if_neg (by decide)).trans (if_pos crc_stateReporting_checksumMismatch)
    | _ => exact absurd he (by decide)
  | hdrExtract =>
    obtain ⟨t, ht, herr⟩ := hdrExtract_verdict (stateReporting e)
    refine ⟨t, ht, herr.trans ?_⟩
    revert he
    cases e <;> decide
  | chkWake =>
    obtain ⟨t, ht, herr, -⟩ := chkWake_verdict (stateReporting e)
    refine ⟨t, ht, herr.trans ?_⟩
    cases e with
    | none =>
      exact (if_neg (by decide)).trans <| (if_neg (not_not_intro crc_stateReporting_none)).trans (if_neg (by decide))
    | malformed => rfl
    | checksumMismatch => exact (if_neg (by decide)).trans (if_pos crc_stateReporting_checksumMismatch)
    | wakeRejected =>
      exact (if_neg (by decide)).trans <|
        (if_neg (not_not_intro crc_stateReporting_wakeRejected)).trans (if_pos (by decide))
    | _ => exact absurd he (by decide)

theorem errcode_mem_row (ht : exec i s = .next t) : ∃ e ∈ ErrorCode.none :: tableErrors i, t.errcode = e.code := by
  cases i with
  | crcClr =>
    obtain ⟨-, ⟨-, herr, -⟩, -⟩ := holds_of_next (crcClrClearsTheAccumulator s) ht
    exact ⟨.none, by decide, herr⟩
  | crcByte =>
    obtain ⟨-, ⟨-, herr, -⟩, -⟩ := holds_of_next (crcByteFeedsDataIntoTheRunningCrc s) ht
    exact ⟨.none, by decide, herr⟩
  | crcBuf =>
    obtain ⟨-, ⟨-, herr, -⟩, -⟩ := holds_of_next (crcBufComputesTheCrcOfTheInput s) ht
    exact ⟨.none, by decide, herr⟩
  | crcCmp =>
    obtain ⟨-, ⟨-, herr, -⟩, -⟩ := holds_of_next (crcCmpReportsWhetherTheClaimMatches s) ht
    exact ⟨.none, by decide, herr⟩
  | valTrailer =>
    obtain ⟨herr, -⟩ := holds_of_next (valTrailer_verdict s) ht
    split at herr
    · exact ⟨.malformed, by decide, herr⟩
    · exact ⟨.none, by decide, herr⟩
  | frameCmd =>
    have herr := holds_of_next (frameCmd_verdict s) ht
    split at herr
    · exact ⟨.invalidSize, by decide, herr⟩
    · exact ⟨.none, by decide, herr⟩
  | valResp =>
    obtain ⟨herr, -⟩ := holds_of_next (valResp_verdict s) ht
    split at herr
    · exact ⟨.malformed, by decide, herr⟩
    split at herr
    · exact ⟨.checksumMismatch, by decide, herr⟩
    · exact ⟨.none, by decide, herr⟩
  | hdrExtract =>
    have herr := holds_of_next (hdrExtract_verdict s) ht
    split at herr
    · exact ⟨.malformed, by decide, herr⟩
    split at herr
    · exact ⟨.malformed, by decide, herr⟩
    · exact ⟨.none, by decide, herr⟩
  | chkWake =>
    obtain ⟨herr, -⟩ := holds_of_next (chkWake_verdict s) ht
    split at herr
    · exact ⟨.malformed, by decide, herr⟩
    split at herr
    · exact ⟨.checksumMismatch, by decide, herr⟩
    split at herr
    · exact ⟨.wakeRejected, by decide, herr⟩
    · exact ⟨.none, by decide, herr⟩

/-- Settles O29: the row's codes are those of the chains of checks, and each is reported from `stateReporting`. -/
theorem commandsReportExactlyTheirTableErrors : Obligations.CommandsReportExactlyTheirTableErrors := by
  unfold Obligations.CommandsReportExactlyTheirTableErrors
  exact ⟨fun _ _ _ ht => errcode_mem_row ht, fun _ e he => ⟨stateReporting e, exec_stateReporting he⟩⟩

end registers

/-! ### A command is a constant update, chosen by what its row reads (R19, R47, R100) -/

/-- States that a command reading only IN and IN_LEN cannot tell apart: the bytes from IN_LEN on may differ (R19). -/
structure SameInput (s s' : State) : Prop where
  count : s'.inCount = s.inCount
  byte : ∀ k : Nat, k < s.inCount → s'.inByte k = s.inByte k

namespace SameInput
variable {s s' : State} {n : Nat}

/-- Agreement on a row that names IN_LEN and IN (R47). -/
theorem of_reads {i : Instr} (hs : ∀ e ∈ tableReads i, e.agree s s')
    (hi : Element.inLen ∈ tableReads i ∧ Element.inBuf ∈ tableReads i) : SameInput s s' :=
  ⟨congrArg BitVec.toNat (hs .inLen hi.1), hs .inBuf hi.2⟩

theorem inSlice (h : SameInput s s') (hn : n ≤ s.inCount) : s'.inSlice 0 n = s.inSlice 0 n :=
  State.inSlice_congr fun k _ hk => h.byte k (Nat.lt_of_lt_of_le hk hn)

theorem packetCrc (h : SameInput s s') (hn : n ≤ s.inCount) : packetCrc s' n = packetCrc s n :=
  congrArg crc16 (h.inSlice (Nat.le_trans (Nat.sub_le n 2) hn))

theorem trailer (h : SameInput s s') (hpos : 1 ≤ n) (hn : n ≤ s.inCount) : s'.trailer n = s.trailer n :=
  State.trailer_congr (h.byte _ (by omega)) (h.byte _ (by omega))

theorem withCrcs (h : SameInput s s') (hpos : 1 ≤ n) (hn : n ≤ s.inCount) :
    withCrcs s' n = (s'.setCrc (Machine.packetCrc s n)).setClaim (s.trailer n) := by
  rw [Machine.withCrcs, h.packetCrc hn, h.trailer hpos hn]

theorem extracted (h : SameInput s s') (hpos : 1 ≤ n) (hn : n ≤ s.inCount) :
    extracted s' n = ((s'.setCrc (Machine.packetCrc s n)).setClaim (s.trailer n)).setRxLen (s.inByte 0) := by
  rw [Machine.extracted, h.withCrcs hpos hn, h.byte 0 (by omega)]

end SameInput

/-- What a command does to the state: the values it writes, `none` where it keeps the element, and its completion. -/
structure Update where
  crc : Option Word := none
  claim : Option Word := none
  rxLen : Option Byte := none
  remain : Option Byte := none
  out : Option (List Byte) := none
  code : Byte
  error : ErrorCode := .none
  matched : Bool := false
  lenOk : Bool := false

/-- The writes, then the common completion (R46). -/
def Update.apply (p : Update) (s : State) : State :=
  State.endCommand
    { s with
      crc := p.crc.getD s.crc
      claim := p.claim.getD s.claim
      rxLen := p.rxLen.getD s.rxLen
      remain := p.remain.getD s.remain
      outBuf := (p.out.map (Memory.ofBytesFrom 0)).getD s.outBuf
      outLen := (p.out.map fun bs => BitVec.ofNat 8 bs.length).getD s.outLen }
    p.code p.error p.matched p.lenOk

/-- What a packet command takes from the n-byte packet in IN: `extracted`, as an update. -/
def packetUpdate (s : State) (n : Nat) (code : Byte) : Update where
  crc := some (packetCrc s n)
  claim := some (s.trailer n)
  rxLen := some (s.inByte 0)
  code := code

section update
variable (s : State)

theorem crcBuf_update : ∃ p : Update, ∀ s', SameInput s s' → exec .crcBuf s' = .next (p.apply s') := by
  refine ⟨{ crc := some (crc16 (s.inSlice 0 s.inCount)), code := 0x03#8 }, fun s' hs => ?_⟩
  rw [exec_crcBuf, hs.count, hs.inSlice le_rfl]
  rfl

theorem crcCmp_update :
    ∃ p : Update, ∀ s', SameInput s s' → s'.claim = s.claim → exec .crcCmp s' = .next (p.apply s') := by
  refine ⟨{ crc := some (crc16 (s.inSlice 0 s.inCount)), code := 0x04#8,
            matched := crc16 (s.inSlice 0 s.inCount) == s.claim }, fun s' hs hclaim => ?_⟩
  rw [exec_crcCmp, hs.count, hs.inSlice le_rfl, hclaim]
  rfl

theorem valTrailer_update : ∃ p : Update, ∀ s', SameInput s s' → exec .valTrailer s' = .next (p.apply s') := by
  rcases Nat.lt_or_ge s.inCount 2 with hshort | hlong
  · exact ⟨{ code := 0x05#8, error := .malformed }, fun s' hs => exec_valTrailer_short (hs.count ▸ hshort)⟩
  · refine ⟨{ crc := some (packetCrc s s.inCount), claim := some (s.trailer s.inCount), code := 0x05#8,
              matched := packetCrc s s.inCount == s.trailer s.inCount }, fun s' hs => ?_⟩
    rw [exec_valTrailer_long (hs.count ▸ hlong), hs.count, hs.withCrcs (by omega) le_rfl, hs.packetCrc le_rfl,
      hs.trailer (by omega) le_rfl]
    rfl

theorem frameCmd_update :
    ∃ p : Update, ∀ s', SameInput s s' → s'.prefixReg = s.prefixReg → exec .frameCmd s' = .next (p.apply s') := by
  by_cases hsize : s.inCount = 0 ∨ 252 ≤ s.inCount
  · exact ⟨{ out := some [], code := 0x06#8, error := .invalidSize },
      fun s' hs _ => exec_frameCmd_size (hs.count ▸ hsize)⟩
  · refine ⟨{ crc := some (frameCrc (s.inSlice 0 s.inCount)),
              out := some (frame s.prefixReg (s.inSlice 0 s.inCount)), code := 0x06#8 }, fun s' hs hprefix => ?_⟩
    have hN := hs.count
    rw [exec_frameCmd_frame (by omega) (by omega), hN, hs.inSlice le_rfl, hprefix]
    rfl

theorem valResp_update : ∃ p : Update, ∀ s', SameInput s s' → exec .valResp s' = .next (p.apply s') := by
  rcases Nat.lt_or_ge s.inCount 4 with hshort | hlong
  · exact ⟨{ out := some [], code := 0x07#8, error := .malformed },
      fun s' hs => exec_valResp_short (hs.count ▸ hshort)⟩
  by_cases hcrc : packetCrc s s.inCount = s.trailer s.inCount
  · refine ⟨{ packetUpdate s s.inCount 0x07#8 with
              out := some (payload (s.inSlice 0 s.inCount)), matched := true,
              lenOk := (s.inByte 0).toNat == s.inCount }, fun s' hs => ?_⟩
    have hcrc' : packetCrc s' s'.inCount = s'.trailer s'.inCount := by
      rwa [hs.count, hs.packetCrc le_rfl, hs.trailer (by omega) le_rfl]
    rw [exec_valResp_match (hs.count ▸ hlong) hcrc', hs.count, hs.extracted (by omega) le_rfl, hs.inSlice le_rfl,
      hs.byte 0 (by omega)]
    rfl
  · refine ⟨{ packetUpdate s s.inCount 0x07#8 with
              out := some [], error := .checksumMismatch, lenOk := (s.inByte 0).toNat == s.inCount }, fun s' hs => ?_⟩
    have hcrc' : packetCrc s' s'.inCount ≠ s'.trailer s'.inCount := by
      rwa [hs.count, hs.packetCrc le_rfl, hs.trailer (by omega) le_rfl]
    rw [exec_valResp_mismatch (hs.count ▸ hlong) hcrc', hs.count, hs.extracted (by omega) le_rfl,
      hs.byte 0 (by omega)]
    rfl

theorem hdrExtract_update : ∃ p : Update, ∀ s', SameInput s s' → exec .hdrExtract s' = .next (p.apply s') := by
  rcases Nat.lt_or_ge s.inCount 4 with hshort | hlong
  · exact ⟨{ code := 0x08#8, error := .malformed }, fun s' hs => exec_hdrExtract_short (hs.count ▸ hshort)⟩
  rcases Nat.lt_or_ge (s.inByte 0).toNat 4 with hsmall | hlen
  · refine ⟨{ rxLen := some (s.inByte 0), remain := some 0x00#8, code := 0x08#8, error := .malformed },
      fun s' hs => ?_⟩
    have hbyte := hs.byte 0 (by omega)
    rw [exec_hdrExtract_small (hs.count ▸ hlong) (hbyte ▸ hsmall), hbyte]
    rfl
  · refine ⟨{ rxLen := some (s.inByte 0), remain := some (BitVec.ofNat 8 ((s.inByte 0).toNat - 4)), code := 0x08#8,
              lenOk := true }, fun s' hs => ?_⟩
    have hbyte := hs.byte 0 (by omega)
    rw [exec_hdrExtract_length (hs.count ▸ hlong) (hbyte ▸ hlen), hbyte]
    rfl

theorem chkWake_update : ∃ p : Update, ∀ s', SameInput s s' → exec .chkWake s' = .next (p.apply s') := by
  by_cases hN : s.inCount = 4
  case neg => exact ⟨{ code := 0x09#8, error := .malformed }, fun s' hs => exec_chkWake_size (hs.count ▸ hN)⟩
  have hfour : 4 ≤ s.inCount := hN.ge
  by_cases hcrc : packetCrc s 4 = s.trailer 4
  · by_cases hack : s.inByte 1 = 0x11#8
    · refine ⟨{ packetUpdate s 4 0x09#8 with matched := true, lenOk := (s.inByte 0).toNat == 4 }, fun s' hs => ?_⟩
      have hcrc' : packetCrc s' 4 = s'.trailer 4 := by rwa [hs.packetCrc hfour, hs.trailer (by decide) hfour]
      rw [exec_chkWake_accepted (hs.count ▸ hN) hcrc' (hs.byte 1 (by omega) ▸ hack),
        hs.extracted (by decide) hfour, hs.byte 0 (by omega)]
      rfl
    · refine ⟨{ packetUpdate s 4 0x09#8 with
                error := .wakeRejected, matched := true, lenOk := (s.inByte 0).toNat == 4 }, fun s' hs => ?_⟩
      have hcrc' : packetCrc s' 4 = s'.trailer 4 := by rwa [hs.packetCrc hfour, hs.trailer (by decide) hfour]
      rw [exec_chkWake_rejected (hs.count ▸ hN) hcrc' (hs.byte 1 (by omega) ▸ hack),
        hs.extracted (by decide) hfour, hs.byte 0 (by omega)]
      rfl
  · refine ⟨{ packetUpdate s 4 0x09#8 with error := .checksumMismatch, lenOk := (s.inByte 0).toNat == 4 },
      fun s' hs => ?_⟩
    have hcrc' : packetCrc s' 4 ≠ s'.trailer 4 := by rwa [hs.packetCrc hfour, hs.trailer (by decide) hfour]
    rw [exec_chkWake_mismatch (hs.count ▸ hN) hcrc', hs.extracted (by decide) hfour, hs.byte 0 (by omega)]
    rfl

/-- Every command makes one and the same update of all states that agree on what its row reads. -/
theorem exec_update (i : Instr) (s : State) :
    ∃ p : Update, ∀ s' : State, (∀ e ∈ tableReads i, e.agree s s') → exec i s' = .next (p.apply s') := by
  cases i with
  | crcClr => exact ⟨{ crc := some 0x0000#16, code := 0x01#8 }, fun s' _ => exec_crcClr s'⟩
  | crcByte =>
    refine ⟨{ crc := some (crcStep s.crc s.data), code := 0x02#8 }, fun s' hs => ?_⟩
    have hcrc : s'.crc = s.crc := hs .crc (by decide)
    have hdata : s'.data = s.data := hs .data (by decide)
    rw [exec_crcByte, hcrc, hdata]
    rfl
  | crcBuf =>
    obtain ⟨p, hp⟩ := crcBuf_update s
    exact ⟨p, fun s' hs => hp s' (.of_reads hs (by decide))⟩
  | crcCmp =>
    obtain ⟨p, hp⟩ := crcCmp_update s
    exact ⟨p, fun s' hs => hp s' (.of_reads hs (by decide)) (hs .claim (by decide))⟩
  | valTrailer =>
    obtain ⟨p, hp⟩ := valTrailer_update s
    exact ⟨p, fun s' hs => hp s' (.of_reads hs (by decide))⟩
  | frameCmd =>
    obtain ⟨p, hp⟩ := frameCmd_update s
    exact ⟨p, fun s' hs => hp s' (.of_reads hs (by decide)) (hs .prefixReg (by decide))⟩
  | valResp =>
    obtain ⟨p, hp⟩ := valResp_update s
    exact ⟨p, fun s' hs => hp s' (.of_reads hs (by decide))⟩
  | hdrExtract =>
    obtain ⟨p, hp⟩ := hdrExtract_update s
    exact ⟨p, fun s' hs => hp s' (.of_reads hs (by decide))⟩
  | chkWake =>
    obtain ⟨p, hp⟩ := chkWake_update s
    exact ⟨p, fun s' hs => hp s' (.of_reads hs (by decide))⟩

end update

section noninterference
variable {i : Instr} {s s' t t' : State}

theorem Element.agree_refl (e : Element) (s : State) : e.agree s s := by
  cases e with
  | inBuf => exact fun _ _ => rfl
  | outBuf => exact fun _ => rfl
  | _ => rfl

/-- Bytes of IN from IN_LEN on are no part of what a command may read (R19). -/
theorem Element.agree_setInByte (e : Element) {k : Nat} (hk : s.inLen.toNat ≤ k) (v : Byte) :
    e.agree s (s.setInByte k v) := by
  cases e with
  | inBuf => exact fun j hj => Memory.read_write_ne s.inBuf (by omega) v
  | outBuf => exact fun _ => rfl
  | _ => rfl

/-- Two states that agree on what the command reads are updated alike. -/
theorem exec_update_pair (hs : ∀ e ∈ tableReads i, e.agree s s') (ht : exec i s = .next t) :
    ∃ p : Update, t = p.apply s ∧ exec i s' = .next (p.apply s') := by
  obtain ⟨p, hp⟩ := exec_update i s
  have hself := hp s fun e _ => e.agree_refl s
  exact ⟨p, Host.Outcome.next.inj (ht.symm.trans hself), hp s' hs⟩

theorem Update.same_completion (p : Update) (s s' : State) {e : Element} (he : e ∈ completionWrites) :
    e.same (p.apply s) (p.apply s') := by
  cases e with
  | lastcmd | status | errcode => rfl
  | _ => exact absurd he (by decide)

theorem tableWrites_subset (i : Instr) : tableWrites i ⊆ [.crc, .claim, .rxLen, .remain, .outBuf, .outLen] := by
  cases i <;> decide

/-- A value that the update writes is the same after both, and one that it does not write is left in both. -/
theorem Update.same_or_kept (p : Update) (s s' : State) {e : Element} (he : e ∈ tableWrites i) :
    e.same (p.apply s) (p.apply s') ∨ (e.same s (p.apply s) ∧ e.same s' (p.apply s')) := by
  obtain ⟨crc, claim, rxLen, remain, out⟩ := p
  cases e with
  | crc =>
    cases crc with
    | none => exact .inr ⟨rfl, rfl⟩
    | some c => exact .inl rfl
  | claim =>
    cases claim with
    | none => exact .inr ⟨rfl, rfl⟩
    | some k => exact .inl rfl
  | rxLen =>
    cases rxLen with
    | none => exact .inr ⟨rfl, rfl⟩
    | some d => exact .inl rfl
  | remain =>
    cases remain with
    | none => exact .inr ⟨rfl, rfl⟩
    | some r => exact .inl rfl
  | outBuf =>
    cases out with
    | none => exact .inr ⟨fun _ => rfl, fun _ => rfl⟩
    | some bs => exact .inl fun _ => rfl
  | outLen =>
    cases out with
    | none => exact .inr ⟨rfl, rfl⟩
    | some bs => exact .inl rfl
  | _ => exact absurd (tableWrites_subset i he) (by decide)

/-- Settles O30: both states get the one update of `exec_update`. -/
theorem commandsReadOnlyTheirTableRow : Obligations.CommandsReadOnlyTheirTableRow := by
  unfold Obligations.CommandsReadOnlyTheirTableRow
  intro i s s' t t' hs ht ht'
  obtain ⟨p, rfl, hp⟩ := exec_update_pair hs ht
  obtain rfl := Host.Outcome.next.inj (hp.symm.trans ht')
  exact ⟨fun e he => p.same_completion s s' he, fun e he => p.same_or_kept s s' he⟩

/-- Settles O31: the command makes of the state with the stale byte the update it makes without, and none writes IN. -/
theorem staleInputBytesAreIgnored : Obligations.StaleInputBytesAreIgnored := by
  unfold Obligations.StaleInputBytesAreIgnored
  intro i s t k v ht hk
  obtain ⟨p, rfl, hp⟩ := exec_update_pair (s' := s.setInByte k v) (fun e _ => e.agree_setInByte hk v) ht
  exact hp

end noninterference

/-! ### The host's view of the block (R30, R33 to R35, R38) -/

section hostView
variable {s t : State} {a : Addr} {v : Byte}

/-- An address reads alike where the byte of IN or the register it may name reads alike and OUT is the same. -/
theorem hostRead_congr (hin : a.toNat ≤ 0x0FF → t.inBuf.read a.toNat = s.inBuf.read a.toNat)
    (hout : t.outBuf = s.outBuf) (hreg : ∀ r, a = regAddr r → readReg t r = readReg s r) :
    hostRead t a = hostRead s a := by
  rcases placeOf_cases a with ⟨ha, -⟩ | ⟨hlo, hhi, -⟩ | ⟨r, ha, -⟩ | ⟨-, -, hp⟩
  · rw [hostRead_in t ha, hostRead_in s ha, hin ha]
  · rw [hostRead_out t hlo hhi, hostRead_out s hlo hhi, hout]
  · rw [ha, hostRead_reg, hostRead_reg, hreg r ha]
  · rw [hostRead_reserved t hp, hostRead_reserved s hp]

/-- The registers a host write stores to, CMD left out (the "host write" column of R32). -/
def isOperand (r : HostReg) : Bool :=
  match r with
  | .inLen | .prefixReg | .data | .claimLo | .claimHi => true
  | .cmd | .status | .errcode | .outLen | .crcLo | .crcHi | .rxLen | .remain => false

/-- The addresses a host write stores to, CMD left out: those of IN, and the operands' (R32). -/
theorem isOperand_iff (r : HostReg) :
    isOperand r = true ↔ (regAddr r).toNat ≤ 0x0FF ∨ regAddr r = 0x203#10 ∨ regAddr r = 0x205#10 ∨
      regAddr r = 0x206#10 ∨ regAddr r = 0x20A#10 ∨ regAddr r = 0x20B#10 := by
  cases r <;> decide

/-- A write to a register other than CMD: what it keeps, and that an operand reads back what was written (R34, R38). -/
theorem writeReg_spec (s : State) {r : HostReg} (hr : r ≠ .cmd) (v : Byte) :
    ∃ t, writeReg s r v = .next t ∧ t.inBuf = s.inBuf ∧ t.outBuf = s.outBuf ∧
      (∀ r', r' ≠ r → readReg t r' = readReg s r') ∧ readReg t r = if isOperand r then v else readReg s r := by
  cases r with
  | cmd => exact absurd rfl hr
  | inLen | prefixReg | data | claimLo | claimHi =>
    refine ⟨_, rfl, rfl, rfl, fun r' hr' => ?_, by simp [readReg, isOperand]⟩
    cases r' <;> simp_all [readReg]
  | status | errcode | outLen | crcLo | crcHi | rxLen | remain => exact ⟨s, rfl, rfl, rfl, fun _ _ => rfl, rfl⟩

/-- A write to IN is seen at its own address alone. -/
theorem hostRead_setInByte_ne (s : State) {b : Addr} (h : b ≠ a) (v : Byte) :
    hostRead (s.setInByte a.toNat v) b = hostRead s b :=
  hostRead_congr (fun _ => Memory.read_write_ne _ (fun heq => h (BitVec.eq_of_toNat_eq heq)) v) rfl fun _ _ => rfl

/-- Settles O39: by what the address names, a byte of IN, a register, or nothing a write can change. -/
theorem readsReturnTheMostRecentWrite : Obligations.ReadsReturnTheMostRecentWrite := by
  unfold Obligations.ReadsReturnTheMostRecentWrite
  intro s a v rest hwf hcmd hp
  rw [step_write hp]
  by_cases hin : a.toNat ≤ 0x0FF
  · refine ⟨_, hostWrite_in _ v hin, fun b hb => hostRead_setInByte_ne (s.setPending rest) hb v, ?_⟩
    rw [if_pos (.inl hin), hostRead_in _ hin]
    exact (Memory.read_write hwf a.toNat v a.toNat).trans (if_pos rfl)
  by_cases hreg : ∃ r, a = regAddr r
  · obtain ⟨r, rfl⟩ := hreg
    have hr : r ≠ .cmd := fun h => hcmd (h ▸ rfl)
    obtain ⟨t, ht, hbuf, hout, hother, hread⟩ := writeReg_spec (s.setPending rest) hr v
    refine ⟨t, (hostWrite_reg r v).trans ht, fun b hb => ?_, ?_⟩
    · exact hostRead_congr (s := s.setPending rest) (fun _ => by rw [hbuf]) hout
        fun r' hr' => hother r' fun h => hb (h ▸ hr')
    · rw [hostRead_reg, hread]
      exact if_congr (isOperand_iff r) rfl (hostRead_reg r).symm
  · have hne : ∀ r, a ≠ regAddr r := not_exists.mp hreg
    refine ⟨_, hostWrite_of_ne_regAddr _ v (by omega) hne, fun b _ => rfl, ?_⟩
    rw [if_neg (by simp [hin, ne_registerRows hne])]
    rfl

theorem setInByte_setInByte_same (hwf : s.inBuf.wf = true) {i : Nat} (hi : i < 256) (v : Byte) :
    (s.setInByte i v).setInByte i v = s.setInByte i v :=
  congrArg (fun m => { s with inBuf := m }) (Memory.write_write_same hwf hi v)

/-- A write outside CMD is one and the same store for every state: it does not look at the host's other moves, and a
second one changes nothing (R35). -/
theorem hostWrite_store (ha : a ≠ regAddr .cmd) (v : Byte) :
    ∃ f : State → State, (∀ s, hostWrite s a v = .next (f s)) ∧
      (∀ s ms, f (s.setPending ms) = (f s).setPending ms) ∧ ∀ s, s.inBuf.wf = true → f (f s) = f s := by
  by_cases hin : a.toNat ≤ 0x0FF
  · exact ⟨fun s => s.setInByte a.toNat v, fun s => hostWrite_in s v hin, fun _ _ => rfl,
      fun s hwf => setInByte_setInByte_same hwf (Nat.lt_succ_of_le hin) v⟩
  by_cases hreg : ∃ r, a = regAddr r
  · obtain ⟨r, rfl⟩ := hreg
    cases r with
    | cmd => exact absurd rfl ha
    | inLen => exact ⟨fun s => s.setInLen v, fun _ => hostWrite_reg .inLen v, fun _ _ => rfl, fun _ _ => rfl⟩
    | prefixReg =>
      exact ⟨fun s => s.setPrefixReg v, fun _ => hostWrite_reg .prefixReg v, fun _ _ => rfl, fun _ _ => rfl⟩
    | data => exact ⟨fun s => s.setData v, fun _ => hostWrite_reg .data v, fun _ _ => rfl, fun _ _ => rfl⟩
    | claimLo =>
      refine ⟨fun s => s.setClaimLow v, fun _ => hostWrite_reg .claimLo v, fun _ _ => rfl, fun s _ => ?_⟩
      simp [State.setClaim]
    | claimHi =>
      refine ⟨fun s => s.setClaimHigh v, fun _ => hostWrite_reg .claimHi v, fun _ _ => rfl, fun s _ => ?_⟩
      simp [State.setClaim]
    | status | errcode | outLen | crcLo | crcHi | rxLen | remain =>
      exact ⟨id, fun _ => hostWrite_reg _ v, fun _ _ => rfl, fun _ _ => rfl⟩
  · exact ⟨id, fun s => hostWrite_of_ne_regAddr s v (by omega) (not_exists.mp hreg), fun _ _ => rfl, fun _ _ => rfl⟩

/-- Settles O40: the second write stores what the first has stored. -/
theorem writesAreIdempotentExceptAtCmd : Obligations.WritesAreIdempotentExceptAtCmd := by
  unfold Obligations.WritesAreIdempotentExceptAtCmd
  intro s a v rest hwf hcmd
  obtain ⟨f, hwrite, hpending, hidem⟩ := hostWrite_store hcmd v
  have honce (u : State) (ms : List HostMove) (hu : u.pending = .write a v :: ms) :
      step u = .next ((f u).setPending ms) := by
    rw [step_write hu, hwrite, hpending]
  refine ⟨(f s).setPending rest, ?_, ?_⟩
  · rw [run_one (honce _ rest rfl), hpending]
    rfl
  · rw [run_succ (honce _ (.write a v :: rest) rfl), run_one (honce _ rest rfl), hpending, hpending, hpending,
      hidem s hwf]
    rfl

/-- States that agree in every element are equal but for the host's side: R13's elements are all the other fields, and a
canonical buffer is what it reads as. -/
theorem eq_of_sameExcept_nil (hs : s.inBuf.wf = true ∧ s.outBuf.wf = true)
    (ht : t.inBuf.wf = true ∧ t.outBuf.wf = true)
    (h : sameExcept [] s t) : t = { s with pending := t.pending, observed := t.observed } := by
  have hin : t.inBuf = s.inBuf := Memory.ext ht.1 hs.1 (h .inBuf List.not_mem_nil)
  have hout : t.outBuf = s.outBuf := Memory.ext ht.2 hs.2 (h .outBuf List.not_mem_nil)
  have hlastcmd : t.lastcmd = s.lastcmd := h .lastcmd List.not_mem_nil
  have hstatus : t.status = s.status := h .status List.not_mem_nil
  have herrcode : t.errcode = s.errcode := h .errcode List.not_mem_nil
  have hinLen : t.inLen = s.inLen := h .inLen List.not_mem_nil
  have houtLen : t.outLen = s.outLen := h .outLen List.not_mem_nil
  have hprefixReg : t.prefixReg = s.prefixReg := h .prefixReg List.not_mem_nil
  have hdata : t.data = s.data := h .data List.not_mem_nil
  have hcrc : t.crc = s.crc := h .crc List.not_mem_nil
  have hclaim : t.claim = s.claim := h .claim List.not_mem_nil
  have hrxLen : t.rxLen = s.rxLen := h .rxLen List.not_mem_nil
  have hremain : t.remain = s.remain := h .remain List.not_mem_nil
  rw [← hin, ← hout, ← hlastcmd, ← hstatus, ← herrcode, ← hinLen, ← houtLen, ← hprefixReg, ← hdata, ← hcrc, ← hclaim,
    ← hrxLen, ← hremain]

/-- A canonical buffer is known from its 256 bytes: above them it reads 0x00. -/
theorem Memory.read_eq_of_lt {m m' : Memory} (hm : m.wf = true) (hm' : m'.wf = true)
    (h : ∀ i : Nat, i < 256 → m.read i = m'.read i) (i : Nat) : m.read i = m'.read i := by
  rcases Nat.lt_or_ge i 256 with hlt | hge
  · exact h i hlt
  · rw [Memory.read_above m hm i hge, Memory.read_above m' hm' i hge]

theorem hostRead_inAddr (s : State) {i : Nat} (h : i < 256) : hostRead s (inAddr i) = s.inBuf.read i := by
  simp only [hostRead, placeOf_inAddr h]

theorem hostRead_outAddr (s : State) {i : Nat} (h : i < 256) : hostRead s (outAddr i) = s.outBuf.read i := by
  simp only [hostRead, placeOf_outAddr h]

theorem eq_of_bytes {c k : Word} (hlo : lowByte c = lowByte k) (hhi : highByte c = highByte k) : c = k := by
  rw [← leWord_bytes c, hlo, hhi, leWord_bytes]

/-- Settles O41: each register is read at its address, a 16-bit one in two halves, and each buffer byte by byte. -/
theorem noStateIsHiddenFromTheHost : Obligations.NoStateIsHiddenFromTheHost := by
  unfold Obligations.NoStateIsHiddenFromTheHost
  intro s t hsin hsout htin htout hread
  refine eq_of_sameExcept_nil ⟨hsin, hsout⟩ ⟨htin, htout⟩ fun e _ => ?_
  have hreg (r : HostReg) : readReg t r = readReg s r := by rw [← hostRead_reg, ← hostRead_reg, hread]
  cases e with
  | inBuf =>
    exact Memory.read_eq_of_lt htin hsin fun i hi => by rw [← hostRead_inAddr t hi, ← hostRead_inAddr s hi, hread]
  | outBuf =>
    exact Memory.read_eq_of_lt htout hsout fun i hi => by rw [← hostRead_outAddr t hi, ← hostRead_outAddr s hi, hread]
  | crc => exact eq_of_bytes (hreg .crcLo) (hreg .crcHi)
  | claim => exact eq_of_bytes (hreg .claimLo) (hreg .claimHi)
  | lastcmd => exact hreg .cmd
  | status => exact hreg .status
  | errcode => exact hreg .errcode
  | inLen => exact hreg .inLen
  | outLen => exact hreg .outLen
  | prefixReg => exact hreg .prefixReg
  | data => exact hreg .data
  | rxLen => exact hreg .rxLen
  | remain => exact hreg .remain

end hostView

/-! ### Runs of host moves (R38, R43, R44, R58) -/

section runs
variable {w : List Element} {s t u : State} {rest : List HostMove}

/-- Settles O49: a step with no move waiting is the identity, and so is any number of them. -/
theorem idleBlockKeepsItsState : Obligations.IdleBlockKeepsItsState := by
  unfold Obligations.IdleBlockKeepsItsState
  intro k s hidle
  induction k with
  | zero => exact run_zero s
  | succ k ih => exact (run_succ (step_idle s hidle) k).trans ih

/-- Settles O50: every step completes. -/
theorem everyRunCompletes : Obligations.EveryRunCompletes := by
  unfold Obligations.EveryRunCompletes
  intro k
  induction k with
  | zero => exact fun s => ⟨s, run_zero s⟩
  | succ k ih =>
    intro s
    obtain ⟨u, hu, -⟩ := step_effect s
    obtain ⟨t, ht⟩ := ih u
    exact ⟨t, (run_succ hu k).trans ht⟩

/-- No host write touches the host's side. -/
theorem WriteEffect.host {a : Addr} {v : Byte} (h : WriteEffect s t a v) : sameHost s t := by
  cases h with
  | command ha h => exact h.host
  | inByte ha h | inLen ha h | prefixReg ha h | data ha h | claimLo ha h | claimHi ha h | ignored h =>
    subst h
    exact ⟨rfl, rfl⟩

/-- Settles O51: by induction on the accesses, of which a read adds one byte and a write none. -/
theorem runsObserveOneBytePerRead : Obligations.RunsObserveOneBytePerRead := by
  unfold Obligations.RunsObserveOneBytePerRead
  intro s ms rest hacc hp
  induction ms generalizing s with
  | nil => exact ⟨s, run_zero s, hp, [], (List.append_nil _).symm, rfl⟩
  | cons m ms ih =>
    have hms : accessesOnly ms := fun h => hacc (List.mem_cons_of_mem _ h)
    cases m with
    | reset => exact absurd List.mem_cons_self hacc
    | read a =>
      obtain ⟨t, ht, hrest, bs, hobs, hcount⟩ := ih ((s.setPending (ms ++ rest)).observe (hostRead s a)) hms rfl
      refine ⟨t, (run_succ (step_read hp) _).trans ht, hrest, hostRead s a :: bs, ?_, congrArg (· + 1) hcount⟩
      rw [hobs, State.observe_observed, List.append_assoc]
      rfl
    | write a v =>
      obtain ⟨u, hu, heff⟩ := hostWrite_effect (s.setPending (ms ++ rest)) a v
      obtain ⟨hpend, hkept⟩ := heff.host
      obtain ⟨t, ht, hrest, bs, hobs, hcount⟩ := ih u hms hpend
      exact ⟨t, (run_succ ((step_write hp).trans hu) _).trans ht, hrest, bs, hkept ▸ hobs, hcount⟩

theorem sameExcept_trans (hst : sameExcept w s t) (htu : sameExcept w t u) : sameExcept w s u :=
  fun e he => Element.same_trans (hst e he) (htu e he)

/-- A run of reads observes what each address reads in the first state, and changes nothing of the block. -/
theorem run_reads (as : List Addr) (hp : s.pending = as.map .read ++ rest) :
    ∃ t, run as.length s = .next t ∧ t.observed = s.observed ++ as.map (hostRead s) ∧ t.pending = rest ∧
      sameExcept [] s t := by
  induction as generalizing s with
  | nil => exact ⟨s, run_zero s, (List.append_nil _).symm, hp, sameExcept_refl [] s⟩
  | cons a as ih =>
    obtain ⟨t, ht, hobs, hrest, hsame⟩ := ih (s := (s.setPending (as.map .read ++ rest)).observe (hostRead s a)) rfl
    refine ⟨t, (run_succ (step_read hp) _).trans ht, ?_, hrest, hsame⟩
    rw [hobs, State.observe_observed, List.append_assoc]
    rfl

/-- Settles O46: RDOUT is a run of reads of OUT's first addresses. -/
theorem rdOutReturnsTheOutput : Obligations.RdOutReturnsTheOutput := by
  unfold Obligations.RdOutReturnsTheOutput
  intro s k rest hwf hp
  have hk : k ≤ 256 := of_decide_eq_true hwf
  have hreads : expand (.rdOut k) = ((List.range k).map outAddr).map .read := by
    rw [List.map_map]
    rfl
  obtain ⟨t, ht, hobs, hrest, hsame⟩ := run_reads _ (hreads ▸ hp)
  have hslice : ((List.range k).map outAddr).map (hostRead s) = s.outBuf.slice 0 k := by
    rw [List.map_map, Memory.slice]
    refine List.map_congr_left fun i hi => ?_
    rw [Nat.zero_add]
    exact hostRead_outAddr s (Nat.lt_of_lt_of_le (List.mem_range.mp hi) hk)
  rw [List.length_map, List.length_range] at ht
  exact ⟨t, ht, hslice ▸ hobs, hrest, hsame⟩

theorem step_writeReg {r : HostReg} {v : Byte} (hp : s.pending = .write (regAddr r) v :: rest) :
    step s = writeReg (s.setPending rest) r v :=
  (step_write hp).trans (hostWrite_reg r v)

/-- SETCLAIM replaces the low byte of CLAIM, then the high byte (R58). -/
theorem run_setClaim {c : Word} (hp : s.pending = expand (.setClaim c) ++ rest) :
    run 2 s = .next ((s.setPending rest).setClaim c) := by
  have hlow : step s =
      .next ((s.setPending (.write (regAddr .claimHi) (highByte c) :: rest)).setClaimLow (lowByte c)) :=
    step_writeReg (r := .claimLo) hp
  rw [run_succ hlow, run_one (step_writeReg (r := .claimHi) rfl)]
  have hword : leWord (lowByte (leWord (lowByte c) (highByte s.claim))) (highByte c) = c := by
    rw [lowByte_leWord, leWord_bytes]
  exact congrArg (fun k => Host.Outcome.next ((s.setPending rest).setClaim k)) hword

/-- Settles O45: SETCLAIM is two writes of half a register, RDCRC two reads of half a register. -/
theorem sixteenBitRegistersTravelLowByteFirst : Obligations.SixteenBitRegistersTravelLowByteFirst := by
  unfold Obligations.SixteenBitRegistersTravelLowByteFirst
  refine ⟨fun s c rest hp => ⟨_, run_setClaim hp, rfl, rfl, rfl, sameExcept_setClaim s c⟩, fun s rest hp => ?_⟩
  exact run_reads [regAddr .crcLo, regAddr .crcHi] hp

/-- FEED runs the byte through the CRC register (R58, R65). -/
theorem run_feed {b : Byte} (hp : s.pending = expand (.feed b) ++ rest) :
    ∃ t, run 2 s = .next t ∧ t.crc = crcStep s.crc b ∧ t.pending = rest := by
  have hdata : step s = .next ((s.setPending (expand (.command .crcByte) ++ rest)).setData b) :=
    step_writeReg (r := .data) hp
  rw [run_succ hdata]
  exact ⟨_, run_one ((step_command rfl (decode_encode .crcByte)).trans (exec_crcByte _)), rfl, rfl⟩

theorem run_feeds (bs : List Byte) (hp : s.pending = expandAll (bs.map .feed) ++ rest) :
    ∃ t, run (2 * bs.length) s = .next t ∧ t.crc = bs.foldl crcStep s.crc ∧ t.pending = rest := by
  induction bs generalizing s with
  | nil => exact ⟨s, run_zero s, rfl, hp⟩
  | cons b bs ih =>
    obtain ⟨u, hu, hcrc, hpend⟩ := run_feed (rest := expandAll (bs.map .feed) ++ rest) hp
    obtain ⟨t, ht, hfold, hrest⟩ := ih hpend
    rw [hcrc] at hfold
    refine ⟨t, ?_, hfold, hrest⟩
    rw [List.length_cons, Nat.mul_succ, Nat.add_comm, run_add hu, ht]

/-- Settles O3: CRC_CLR starts the register at CRC_INIT, and each FEED is one step of the fold. -/
theorem streamedBytesLeaveTheirCrc : Obligations.StreamedBytesLeaveTheirCrc := by
  unfold Obligations.StreamedBytesLeaveTheirCrc
  refine ⟨fun bs b => crc16_append bs [b], fun s bs rest hp => ?_⟩
  rw [List.append_assoc] at hp
  have hclear := run_one ((step_command hp (decode_encode .crcClr)).trans (exec_crcClr _))
  obtain ⟨t, ht, hcrc, hrest⟩ := run_feeds (rest := rest)
    (s := ((s.setPending (expandAll (bs.map .feed) ++ rest)).setCrc 0x0000#16).endCommand 0x01#8 .none false false)
    bs rfl
  refine ⟨t, (run_add hclear _).trans ht, hcrc, hrest, fun u hu => ⟨_, exec_crcBuf u, ?_⟩⟩
  have hinput : crc16 (u.inSlice 0 u.inCount) = crc16 bs := congrArg crc16 hu
  exact hinput.trans hcrc.symm

/-- What the first writes of a LOAD leave: `bs` in IN from index `k` on, and all else as it was. -/
structure Loaded (k : Nat) (bs : List Byte) (s t : State) : Prop where
  observed : t.observed = s.observed
  wf : t.inBuf.wf = true
  bytes : ∀ (j : Nat) (hj : j < bs.length), t.inByte (k + j) = bs[j]
  others : ∀ i : Nat, i < k ∨ k + bs.length ≤ i → t.inByte i = s.inByte i
  frame : sameExcept [.inBuf] s t

theorem run_loadWrites (bs : List Byte) {k : Nat} (hk : k + bs.length ≤ 256) (hwf : s.inBuf.wf = true)
    (hp : s.pending = loadWrites k bs ++ rest) :
    ∃ t, run bs.length s = .next t ∧ t.pending = rest ∧ Loaded k bs s t := by
  induction bs generalizing s k with
  | nil =>
    exact ⟨s, run_zero s, hp, rfl, hwf, fun j hj => absurd hj (Nat.not_lt_zero j), fun _ _ => rfl, sameExcept_refl _ s⟩
  | cons b bs ih =>
    rw [List.length_cons] at hk ⊢
    have haddr : (inAddr k).toNat = k := toNat_inAddr (by omega)
    have hstep : step s = .next ((s.setPending (loadWrites (k + 1) bs ++ rest)).setInByte k b) := by
      rw [step_write hp, hostWrite_in _ b (by omega), haddr]
      rfl
    have hwf' : (s.inBuf.write k b).wf = true := Memory.wf_write hwf (Nat.lt_of_lt_of_le (by omega) hk) b
    have hread (i : Nat) : (s.inBuf.write k b).read i = if i = k then b else s.inByte i :=
      Memory.read_write hwf k b i
    obtain ⟨t, ht, hrest, hload⟩ := ih (k := k + 1) (by omega) hwf'
      (s := (s.setPending (loadWrites (k + 1) bs ++ rest)).setInByte k b) rfl
    refine ⟨t, (run_succ hstep _).trans ht, hrest, hload.observed, hload.wf, fun j hj => ?_, fun i hi => ?_, ?_⟩
    · cases j with
      | zero => exact (hload.others k (by omega)).trans ((hread k).trans (if_pos rfl))
      | succ j =>
        rw [← Nat.add_assoc, Nat.add_right_comm]
        exact hload.bytes j (Nat.lt_of_succ_lt_succ hj)
    · rw [List.length_cons] at hi
      exact (hload.others i (by omega)).trans ((hread i).trans (if_neg (by omega)))
    · exact sameExcept_trans (sameExcept_setInByte s k b) hload.frame

theorem Loaded.inSlice {n : Nat} {bs : List Byte} (h : Loaded 0 bs s t) (hn : n = bs.length) : t.inSlice 0 n = bs :=
  State.inSlice_eq hn.symm h.bytes

/-- LOAD leaves its bytes in IN and their number in IN_LEN (R58). -/
theorem run_load {bs : List Byte} (hwf : s.inBuf.wf = true) (hlen : bs.length < 256)
    (hp : s.pending = expand (.load bs) ++ rest) :
    ∃ t, run (bs.length + 1) s = .next ((t.setPending rest).setInLen (BitVec.ofNat 8 bs.length)) ∧ Loaded 0 bs s t := by
  have hp' : s.pending = loadWrites 0 bs ++ .write (regAddr .inLen) (BitVec.ofNat 8 bs.length) :: rest := by
    rw [hp, expand, List.append_assoc]
    rfl
  obtain ⟨t, ht, hpend, hload⟩ := run_loadWrites bs (by omega) hwf hp'
  exact ⟨t, (run_add ht 1).trans (run_one (step_writeReg (r := .inLen) hpend)), hload⟩

/-- Settles O44: the writes of the bytes, one by one, then the write of their number (`run_load`). -/
theorem loadPutsItsBytesInTheInput : Obligations.LoadPutsItsBytesInTheInput := by
  unfold Obligations.LoadPutsItsBytesInTheInput
  intro s bs rest hwf hbound hp
  have hlen : bs.length < 256 := of_decide_eq_true hbound
  obtain ⟨t, ht, hload⟩ := run_load hwf hlen hp
  refine ⟨_, ht, rfl, hload.observed, hload.wf, Nat.mod_eq_of_lt hlen, hload.inSlice rfl, fun i hi => ?_, ?_⟩
  · exact hload.others i (.inr (by omega))
  · have hframe : sameExcept [.inBuf, .inLen] t (t.setInLen (BitVec.ofNat 8 bs.length)) :=
      sameExcept_mono (sameExcept_setInLen t _) (by decide)
    exact sameExcept_trans (sameExcept_mono hload.frame (by decide)) hframe

/-- VAL_TRAILER accepts bytes with their own CRC behind them (R68). -/
theorem valTrailer_of_inSlice {bs : List Byte} (h : s.inSlice 0 s.inCount = bs ++ leBytes (crc16 bs)) :
    ∃ t, exec .valTrailer s = .next t ∧ t.pending = s.pending ∧ t.matchFlag = true ∧ t.errcode = 0x00#8 := by
  have hN : s.inCount = bs.length + 2 := by simpa using congrArg List.length h
  obtain ⟨hbytes, htrailer⟩ := packet_of_inSlice h
  refine ⟨_, exec_valTrailer_long (by omega), rfl, ?_, rfl⟩
  rw [State.endCommand_matchFlag, packetCrc, hbytes, htrailer, beq_self_eq_true]

/-- Settles O13: what LOAD leaves is a packet whose trailer is its CRC, and VAL_TRAILER compares the two. -/
theorem trailerRoundTrip : Obligations.TrailerRoundTrip := by
  unfold Obligations.TrailerRoundTrip
  intro s bs rest hwf hlen hp
  have hlength : (bs ++ leBytes (crc16 bs)).length = bs.length + 2 := by simp
  rw [List.append_assoc] at hp
  obtain ⟨t, ht, hload⟩ := run_load hwf (by omega) hp
  generalize hn : BitVec.ofNat 8 (bs ++ leBytes (crc16 bs)).length = n at ht
  have hN : n.toNat = (bs ++ leBytes (crc16 bs)).length := by
    rw [← hn]
    exact Nat.mod_eq_of_lt (by omega)
  obtain ⟨u, hu, hpend, hverdict⟩ :=
    valTrailer_of_inSlice (s := (t.setInLen n).setPending rest) (hload.inSlice hN)
  have hlast : step ((t.setPending (expand (.command .valTrailer) ++ rest)).setInLen n) = .next u :=
    (step_command rfl (decode_encode .valTrailer)).trans hu
  rw [hlength] at ht
  exact ⟨u, (run_add ht 1).trans (run_one hlast), hpend, hverdict⟩

end runs

end Sys2Proof.Machine
